-- ==== Sys2Proof/Word.lean ====
section
/-! DEFINITION. The value types of the core: bytes, 32-bit words, 16-byte blocks and the 7-bit word
index of the host port (00_scope.md R7, R9, R10; 20_memory.md R60). -/

namespace Sys2Proof

/-- A byte: 8 bits, unsigned (R9). -/
abbrev Byte := BitVec 8

/-- A word: 32 bits, unsigned (R9). -/
abbrev Word := BitVec 32

/-- A block, an IV, a round key or a state matrix: 16 bytes, byte `i` is row `i % 4`, column `i / 4`
(R10, R11). -/
abbrev Block := Vector Byte 16

/-- The 7-bit word index of the host register port (R7, R60). -/
abbrev Index := BitVec 7

end Sys2Proof
end

