-- ==== Sys2Proof/Syntax.lean ====
section
/-! DEFINITION. The core's instructions are the commands written to `CTRL` (00_scope.md R4; 30_encoding.md
R80). One constructor per row of spec/opcode_table.json.

Every command word carries the operand fields `LEN` and `KEYBITS` (R81). A command that ignores one of them
accepts any value of it (R88), so every constructor keeps both and no bit of a word is lost. -/

namespace Sys2Proof

/-- A command of the core (R83). `len` is `w[13:8]` and `keybits` is `w[24:16]` (R81). -/
inductive Instr where
  /-- `NOP`, OP 0x0 (R241). -/
  | nop (len : BitVec 6) (keybits : BitVec 9)
  /-- `INIT`, OP 0x1: `len` key bytes are loaded, a `keybits`-bit key is requested (R136). -/
  | init (len : BitVec 6) (keybits : BitVec 9)
  /-- `ECB_ENC`, OP 0x2 (R173). -/
  | ecbEnc (len : BitVec 6) (keybits : BitVec 9)
  /-- `ECB_DEC`, OP 0x3 (R174). -/
  | ecbDec (len : BitVec 6) (keybits : BitVec 9)
  /-- `ENC_START`, OP 0x4 (R202). -/
  | encStart (len : BitVec 6) (keybits : BitVec 9)
  /-- `ENC_BLOCK`, OP 0x5 (R203). -/
  | encBlock (len : BitVec 6) (keybits : BitVec 9)
  /-- `ENC_FINAL`, OP 0x6: `len` plaintext bytes remain (R204). -/
  | encFinal (len : BitVec 6) (keybits : BitVec 9)
  /-- `DEC_START`, OP 0x7: `len` IV bytes are available (R206). -/
  | decStart (len : BitVec 6) (keybits : BitVec 9)
  /-- `DEC_BLOCK`, OP 0x8 (R208). -/
  | decBlock (len : BitVec 6) (keybits : BitVec 9)
  /-- `DEC_FINAL`, OP 0x9: `len` ciphertext bytes remain (R207). -/
  | decFinal (len : BitVec 6) (keybits : BitVec 9)
  /-- `RESET`, OP 0xF (R242). -/
  | reset (len : BitVec 6) (keybits : BitVec 9)
  deriving DecidableEq, Repr

end Sys2Proof
end

