-- ==== Sys2Proof/WellFormed.lean ====
section
/-! DEFINITION. Which commands a legal word can stand for: the `LEN` range of 30_encoding.md R84. -/

namespace Sys2Proof

/-- The `LEN` range check of R84. `KEYBITS` has no range check: a value other than 128, 192 and 256 is a
legal word that ends with `UNSUPPORTED_VARIANT` (R85). The commands check the range too (R136, R204, R206, R207): log
entry 11. -/
def Instr.wellFormed : Instr → Bool
  | .nop _ _ => true
  | .init len _ => decide (len.toNat ≤ 32)
  | .ecbEnc _ _ => true
  | .ecbDec _ _ => true
  | .encStart _ _ => true
  | .encBlock _ _ => true
  | .encFinal len _ => decide (len.toNat ≤ 15)
  | .decStart len _ => decide (len.toNat ≤ 16)
  | .decBlock _ _ => true
  | .decFinal len _ => decide (len.toNat ≤ 16)
  | .reset _ _ => true

end Sys2Proof
end

