-- ==== Sys2Proof/Decode.lean ====
section
/-! DEFINITION. Decoding a `CTRL` command word (30_encoding.md R81, R82) and, after it, the encoder. -/

namespace Sys2Proof

/-- Why a word is no command. All three end as `ILLEGAL_COMMAND` (R82); they are checked in this order (R262). -/
inductive DecodeError where
  /-- A bit of the mask `0xFE00C0F0` is set (R87). -/
  | reservedBit
  /-- `OP` is 0xA..0xE (R88). -/
  | reservedOp
  /-- `LEN` is out of the range of its `OP` (R84). -/
  | lenOutOfRange
  deriving DecidableEq, Repr

/-- The reserved bits [7:4], [15:14] and [31:25] of a command word (R81, R87). -/
def reservedMask : Word := 0xFE00C0F0#32

/-- `OP = w[3:0]` (R81). -/
def opField (w : Word) : BitVec 4 := w.extractLsb' 0 4

/-- `LEN = w[13:8]` (R81). -/
def lenField (w : Word) : BitVec 6 := w.extractLsb' 8 6

/-- `KEYBITS = w[24:16]` (R81). -/
def keybitsField (w : Word) : BitVec 9 := w.extractLsb' 16 9

/-- The operation map of R83. OP 0xA..0xE select nothing (R88). -/
def instrOfOp (op : BitVec 4) (len : BitVec 6) (keybits : BitVec 9) : Option Instr :=
  match op.toNat with
  | 0x0 => some (.nop len keybits)
  | 0x1 => some (.init len keybits)
  | 0x2 => some (.ecbEnc len keybits)
  | 0x3 => some (.ecbDec len keybits)
  | 0x4 => some (.encStart len keybits)
  | 0x5 => some (.encBlock len keybits)
  | 0x6 => some (.encFinal len keybits)
  | 0x7 => some (.decStart len keybits)
  | 0x8 => some (.decBlock len keybits)
  | 0x9 => some (.decFinal len keybits)
  | 0xF => some (.reset len keybits)
  | _ => none

/-- Decoding, total over all 2^32 words (R82): reserved bits, then the operation, then the `LEN` range. -/
def decode (w : Word) : Except DecodeError Instr :=
  if w &&& reservedMask ≠ 0#32 then .error .reservedBit
  else
    match instrOfOp (opField w) (lenField w) (keybitsField w) with
    | none => .error .reservedOp
    | some i => if i.wellFormed then .ok i else .error .lenOutOfRange

/-- The `OP` value of a command (R83). -/
def Instr.op : Instr → BitVec 4
  | .nop _ _ => 0x0#4
  | .init _ _ => 0x1#4
  | .ecbEnc _ _ => 0x2#4
  | .ecbDec _ _ => 0x3#4
  | .encStart _ _ => 0x4#4
  | .encBlock _ _ => 0x5#4
  | .encFinal _ _ => 0x6#4
  | .decStart _ _ => 0x7#4
  | .decBlock _ _ => 0x8#4
  | .decFinal _ _ => 0x9#4
  | .reset _ _ => 0xF#4

/-- The `LEN` field of a command (R81). -/
def Instr.len : Instr → BitVec 6
  | .nop len _ | .init len _ | .ecbEnc len _ | .ecbDec len _ | .encStart len _ | .encBlock len _
  | .encFinal len _ | .decStart len _ | .decBlock len _ | .decFinal len _ | .reset len _ => len

/-- The `KEYBITS` field of a command (R81). -/
def Instr.keybits : Instr → BitVec 9
  | .nop _ kb | .init _ kb | .ecbEnc _ kb | .ecbDec _ kb | .encStart _ kb | .encBlock _ kb
  | .encFinal _ kb | .decStart _ kb | .decBlock _ kb | .decFinal _ kb | .reset _ kb => kb

/-- `w = OP | (LEN << 8) | (KEYBITS << 16)` (R81). -/
def packWord (op : BitVec 4) (len : BitVec 6) (keybits : BitVec 9) : Word :=
  op.setWidth 32 ||| (len.setWidth 32 <<< 8) ||| (keybits.setWidth 32 <<< 16)

/-- The command word of a command (R81). -/
def encode (i : Instr) : Word := packWord i.op i.len i.keybits

/-- The command that the decoder reads from an opcode-table word of `nbits` bits; the bits above are zero. -/
def decodeTableWord (nbits w : Nat) : Option Instr :=
  (decode (BitVec.ofNat 32 (w % 2 ^ nbits))).toOption

end Sys2Proof
end

