-- ==== Sys2Proof/Machine/State.lean ====
section
/-! DEFINITION. The state of the machine (10_state.md R20), its reset value (70_reset_and_hazards.md R290),
and the reasons a step can stop.

The fields from `keybuf` to `round` are the spec's own table R20, all of it. There is no memory of bytes
(20_memory.md R61; log entry 12). The last three (`pending`, `replies`, `freeIdx`) are the MODEL's own: the accesses
the host makes next, the values its reads returned, and the counter of free values. -/

namespace Sys2Proof.Machine

/-- The state of the CBC mode controller (R33). -/
inductive StreamState where
  /-- 0 `IDLE`: no stream. -/
  | idle
  /-- 1 `ENC_RUN`: an encryption stream is open. -/
  | encRun
  /-- 2 `DEC_RUN`: a decryption stream is open, its IV consumed. -/
  | decRun
  /-- 3 `DONE`: the stream ended normally. -/
  | done
  /-- 4 `FAILED`: the stream ended by a fatal error. -/
  | failed
  deriving DecidableEq, Repr

/-- The result code of the last command other than `NOP` (R34, R260). -/
inductive ErrCode where
  /-- 0 `NONE`: success. -/
  | none
  /-- 1 `INVALID_KEY_LENGTH`. -/
  | invalidKeyLength
  /-- 2 `UNSUPPORTED_VARIANT`. -/
  | unsupportedVariant
  /-- 3 `STREAM_TRUNCATED`. -/
  | streamTruncated
  /-- 4 `PADDING_INVALID`. -/
  | paddingInvalid
  /-- 5 `NO_KEY`. -/
  | noKey
  /-- 6 `BAD_SEQUENCE`. -/
  | badSequence
  /-- 7 `ILLEGAL_COMMAND`. -/
  | illegalCommand
  deriving DecidableEq, Repr

/-- One thing the outside world does to the core. `read` and `write` are the host accesses of R246;
`hardwareReset` is the platform asserting the core's one reset (R290). -/
inductive Access where
  /-- `HostRead(i)` (R243). -/
  | read (i : Index)
  /-- `HostWrite(i, v)` (R244). -/
  | write (i : Index) (v : Word)
  /-- The platform asserts hardware reset (R290). -/
  | hardwareReset
  deriving DecidableEq, Repr

/-- Why a step faults. -/
inductive Fault where
  /-- A host access other than a `STATUS` read while `BUSY = 1`. Raised by `access`, never by a command. The spec
  itself says that a model treats it as a fault (R298, U4). SAFE: the run is not admitted. It cannot occur in a
  run from reset, where `BUSY` is always 0 (R40). -/
  | hostAccessWhileBusy
  deriving DecidableEq, Repr

/-- Why a command is refused. No arm of `exec` refuses: every command has its meaning. -/
inductive Refusal where
  /-- The command has no meaning yet. Raised by nobody. SAFE: the run stops. -/
  | notModelled (mnemonic : String)
  deriving DecidableEq, Repr

/-- The whole state (R20). -/
structure State where
  /-- `KEYBUF[0..7]`: the raw key, 32 bytes (R24). -/
  keybuf : Vector Word 8
  /-- `IV[0..3]`: the encryption IV (R25). -/
  iv : Vector Word 4
  /-- `DIN[0..3]`: the input block (R26). -/
  din : Vector Word 4
  /-- `DOUT[0..3]`: the last output block (R27). -/
  dout : Vector Word 4
  /-- `OUT_COUNT`, 0..16: how many leading bytes of `DOUT` are output (R28). -/
  outCount : Fin 17
  /-- `CV[0..15]`: the chaining value (R29). -/
  cv : Block
  /-- `NEXT_IV[0..15]`: the ciphertext block captured by decryption (R30). -/
  nextIv : Block
  /-- `STATE[0..15]`: the block state matrix (R38). -/
  state : Block
  /-- `KS[0..59]`: the key-schedule RAM (R37). -/
  ks : Vector Word 60
  /-- `KS_VALID` (R35). -/
  ksValid : Bool
  /-- `NK`: 0, 4, 6 or 8 (R36). -/
  nk : Fin 9
  /-- `NR`: 0, 10, 12 or 14 (R36). -/
  nr : Fin 15
  /-- `STREAM` (R33). -/
  stream : StreamState
  /-- `ERR` (R34). -/
  err : ErrCode
  /-- `BUSY` (R40): 0 between commands, so 0 at every step of a run (log entry 5). -/
  busy : Bool
  /-- `KSI`: the key-schedule word index of the key-expansion unit (R39). -/
  ksi : BitVec 6
  /-- `TEMP`: the word `temp` of the key-expansion unit (R39). -/
  temp : Word
  /-- `RCON`: the nonzero byte of the round constant (R39). -/
  rcon : Byte
  /-- `ROUND`: the round counter of the cipher engines (R39). -/
  round : BitVec 4
  /-- MODEL's own: what the host (and the platform's reset) does next, first to come first (R246). Log entry 3. -/
  pending : List Access
  /-- MODEL's own: the values that the host's reads returned, the latest first (R246). Log entry 4. -/
  replies : List Word
  /-- MODEL's own: how many times the sequencing registers became unspecified. Log entry 1. -/
  freeIdx : Nat
  deriving DecidableEq, Repr

/-- The machine right after reset (R290). Every element the spec gives a reset value has it. `KSI`, `TEMP`, `RCON`
and `ROUND` are "unspecified" there; the model names 0 (DESIGN CHOICE, log entry 2). No host access is pending and
none has been answered (DESIGN CHOICE, log entries 3 and 4). -/
def State.reset : State where
  keybuf := Vector.replicate 8 0#32
  iv := Vector.replicate 4 0#32
  din := Vector.replicate 4 0#32
  dout := Vector.replicate 4 0#32
  outCount := 0
  cv := Vector.replicate 16 0#8
  nextIv := Vector.replicate 16 0#8
  state := Vector.replicate 16 0#8
  ks := Vector.replicate 60 0#32
  ksValid := false
  nk := 0
  nr := 0
  stream := .idle
  err := .none
  busy := false
  ksi := 0#6
  temp := 0#32
  rcon := 0#8
  round := 0#4
  pending := []
  replies := []
  freeIdx := 0

end Sys2Proof.Machine
end

