-- ==== Sys2Proof/Machine/Operands.lean ====
section
/-! DEFINITION. The byte order and the operands of the commands: bytes and words (00_scope.md R9;
20_memory.md R62), the operands assembled from the data registers (30_encoding.md R84 to R86) and the
PKCS#7 padding (43_cbc_stream.md R201). -/

namespace Sys2Proof.Machine

/-- `word(b0,b1,b2,b3)`: `b0` is the most significant byte (R9, R62). -/
def word (b0 b1 b2 b3 : Byte) : Word :=
  (b0.setWidth 32 <<< 24) ||| (b1.setWidth 32 <<< 16) ||| (b2.setWidth 32 <<< 8) ||| b3.setWidth 32

/-- `bytes(w)[k]`: byte 0 is `w[31:24]`, byte 3 is `w[7:0]` (R9, R62). -/
def byteOf (w : Word) (k : Fin 4) : Byte := w.extractLsb' (24 - 8 * k.val) 8

/-- The row of block byte `i` (R10). It is also the byte's place in its big-endian word (R62, R64). -/
def rowOf (i : Fin 16) : Fin 4 := ⟨i.val % 4, by omega⟩

/-- The column of block byte `i` (R10). It is also the word that holds the byte (R62, R64). -/
def colOf (i : Fin 16) : Fin 4 := ⟨i.val / 4, by omega⟩

/-- The block `bytes(x[0]) ++ bytes(x[1]) ++ bytes(x[2]) ++ bytes(x[3])` of a register group (R62, R86). -/
def wordsBlock (x : Vector Word 4) : Block := Vector.ofFn fun i => byteOf x[colOf i] (rowOf i)

/-- The register group of a block: `x[j] = word(B[4j], B[4j+1], B[4j+2], B[4j+3])` (R62, R86). -/
def blockWords (b : Block) : Vector Word 4 :=
  Vector.ofFn fun j : Fin 4 =>
    word (b[4 * j.val]'(by omega)) (b[4 * j.val + 1]'(by omega)) (b[4 * j.val + 2]'(by omega))
      (b[4 * j.val + 3]'(by omega))

/-- Bytewise exclusive-or of two blocks (R9). -/
def xorBlock (a b : Block) : Block := Vector.ofFn fun i => a[i] ^^^ b[i]

/-- The 32 key bytes `bytes(KEYBUF[0]) ++ ... ++ bytes(KEYBUF[7])` (R24, R86). -/
def keyBytes (s : State) : List Byte :=
  (Vector.ofFn fun i : Fin 32 =>
    byteOf (s.keybuf[i.val / 4]'(by omega)) ⟨i.val % 4, by omega⟩).toList

/-- The input block `D[0..15]` in `DIN` (R26, R86). -/
def inputBlock (s : State) : Block := wordsBlock s.din

/-- The IV `V[0..15]` in `IV0..IV3` (R25, R86). -/
def ivBlock (s : State) : Block := wordsBlock s.iv

/-- The cipher variant that `KEYBITS` selects (R3, R85). -/
inductive Variant where
  | aes128
  | aes192
  | aes256
  deriving DecidableEq, Repr

/-- `Nk`, the key words of a variant: 4, 6 or 8 (R3, R85). -/
def Variant.keyWords : Variant → Fin 9
  | .aes128 => 4
  | .aes192 => 6
  | .aes256 => 8

/-- `Nr = Nk + 6`, the rounds of a variant: 10, 12 or 14 (R3). -/
def Variant.rounds : Variant → Fin 15
  | .aes128 => 10
  | .aes192 => 12
  | .aes256 => 14

/-- The variant a `KEYBITS` value requests; every value but 128, 192 and 256 requests none (R85). -/
def requestedVariant (keybits : BitVec 9) : Option Variant :=
  if keybits.toNat = 128 then some .aes128
  else if keybits.toNat = 192 then some .aes192
  else if keybits.toNat = 256 then some .aes256
  else none

/-- `Pad(D, n) = D[0..n-1] ++ [16 - n]*(16 - n)` (R201). -/
def pad (d : Block) (n : Nat) : Block :=
  Vector.ofFn fun i => if i.val < n then d[i] else BitVec.ofNat 8 (16 - n)

/-- `PadValid(P)`: with `p = P[15]`, `1 ≤ p ≤ 16` and the last `p` bytes all equal `p` (R201). -/
def padValid (b : Block) : Bool :=
  decide (1 ≤ b[15].toNat ∧ b[15].toNat ≤ 16 ∧ ∀ k : Fin 16, 16 - b[15].toNat ≤ k.val → b[k] = b[15])

/-- `16 - p`, the number of plaintext bytes in a block whose padding length is `p = P[15]` (R207). -/
def plainCount (b : Block) : Fin 17 := ⟨16 - b[15].toNat, by omega⟩

end Sys2Proof.Machine
end

