-- ==== Sys2Proof/Machine/KeySchedule.lean ====
section
/-! DEFINITION. The key-expansion unit and the key-schedule RAM's read side (41_key_schedule.md R130 to R138). -/

namespace Sys2Proof.Machine

/-- `RotWord(w) = (w << 8) | (w >> 24)` (R131). -/
def rotWord (w : Word) : Word := (w <<< 8) ||| (w >>> 24)

/-- `SubWord(w)`: each of the four bytes through the S-Box (R132). -/
def subWord (w : Word) : Word :=
  word (sbox (byteOf w 0)) (sbox (byteOf w 1)) (sbox (byteOf w 2)) (sbox (byteOf w 3))

/-- The word `Rcon = RCON << 24`: the nonzero byte is the MOST significant one (R133; 90_conflicts.md C1). -/
def rconWord (rcon : Byte) : Word := rcon.setWidth 32 <<< 24

/-- Word `i` of the key-schedule RAM. Indexes of 60 and above name no word and are never used (R138); the
model reads 0 there (log entry 14). -/
def ksWord (ks : Vector Word 60) (i : Nat) : Word := ks[i]?.getD 0#32

/-- The key-expansion unit while it runs: its registers `KSI`, `TEMP` and `RCON`, and the words made so far (R39, R139). -/
structure Expander where
  ksi : Nat
  temp : Word
  rcon : Byte
  w : Vector Word 60

/-- The unit before the loop of R134: words `0..Nk-1` are the key's bytes, big-endian, and the rest 0. -/
def expanderInit (nk : Nat) (key : List Byte) : Expander where
  ksi := nk
  temp := 0#32
  rcon := 0x01#8
  w := Vector.ofFn fun i =>
    if i.val < nk then
      word (key.getD (4 * i.val) 0#8) (key.getD (4 * i.val + 1) 0#8) (key.getD (4 * i.val + 2) 0#8)
        (key.getD (4 * i.val + 3) 0#8)
    else 0#32

/-- The word that R134 XORs onto `w[i-Nk]`, from `temp = w[i-1]`: rotated, substituted and XORed with `Rcon` when
`i mod Nk = 0`; substituted when `Nk > 6` and `i mod Nk = 4`; else unchanged. -/
def expandTemp (nk i : Nat) (rcon : Byte) (temp : Word) : Word :=
  if i % nk = 0 then subWord (rotWord temp) ^^^ rconWord rcon
  else if 6 < nk ∧ i % nk = 4 then subWord temp
  else temp

/-- One iteration of the loop of R134, at `i = KSI`. `RCON` is doubled after each use (R133). -/
def expandStep (nk : Nat) (e : Expander) : Expander :=
  let t := expandTemp nk e.ksi e.rcon (ksWord e.w (e.ksi - 1))
  { ksi := e.ksi + 1
    temp := t
    rcon := if e.ksi % nk = 0 then xtime e.rcon else e.rcon
    w := e.w.setIfInBounds e.ksi (ksWord e.w (e.ksi - nk) ^^^ t) }

/-- `n` iterations of the loop of R134. -/
def expandLoop (nk : Nat) : Nat → Expander → Expander
  | 0, e => e
  | n + 1, e => expandLoop nk n (expandStep nk e)

/-- `ExpandKey(K, Nk)`: words `0..4·(Nr+1)-1` with `Nr = Nk + 6`, and zeros above them (R134, R136). -/
def expandKey (nk : Nat) (key : List Byte) : Vector Word 60 :=
  (expandLoop nk (4 * (nk + 7) - nk) (expanderInit nk key)).w

/-- Round key `r`: `bytes(KS[4r]) ++ bytes(KS[4r+1]) ++ bytes(KS[4r+2]) ++ bytes(KS[4r+3])` (R138). -/
def roundKey (ks : Vector Word 60) (r : Nat) : Block :=
  Vector.ofFn fun i => byteOf (ksWord ks (4 * r + (colOf i).val)) (rowOf i)

end Sys2Proof.Machine
end

