-- ==== Sys2Proof/Machine/BlockTransform.lean ====
section
/-! DEFINITION. The round primitives and the forward and inverse cipher engines (42_block_transform.md
R160 to R172). -/

namespace Sys2Proof.Machine

/-- `S[r,c] = S[r + 4c]` (R10). -/
def cell (s : Block) (r c : Fin 4) : Byte := s[r.val + 4 * c.val]'(by omega)

/-- The block whose byte in row `r` and column `c` is `f r c` (R10). -/
def ofCells (f : Fin 4 → Fin 4 → Byte) : Block := Vector.ofFn fun i => f (rowOf i) (colOf i)

/-- `SubBytes(S)`: every byte through the S-Box (R161). -/
def subBytes (s : Block) : Block := Vector.ofFn fun i => sbox s[i]

/-- `InvSubBytes(S)`: every byte through the inverse S-Box (R162). -/
def invSubBytes (s : Block) : Block := Vector.ofFn fun i => invSbox s[i]

/-- `ShiftRows(S)`: `S'[r,c] = S[r, (c + r) mod 4]` (R163). Addition of `Fin 4` is modulo 4. -/
def shiftRows (s : Block) : Block := ofCells fun r c => cell s r (c + r)

/-- `InvShiftRows(S)`: `S'[r, (c + r) mod 4] = S[r,c]`, so `S'[r,c] = S[r, (c - r) mod 4]` (R164). -/
def invShiftRows (s : Block) : Block := ofCells fun r c => cell s r (c - r)

/-- Row `r` of the product of the matrix `{02,03,01,01}` with a column `a0..a3` (R165). -/
def mixColumn (a0 a1 a2 a3 : Byte) (r : Fin 4) : Byte :=
  match r with
  | 0 => gmul 0x02#8 a0 ^^^ gmul 0x03#8 a1 ^^^ a2 ^^^ a3
  | 1 => a0 ^^^ gmul 0x02#8 a1 ^^^ gmul 0x03#8 a2 ^^^ a3
  | 2 => a0 ^^^ a1 ^^^ gmul 0x02#8 a2 ^^^ gmul 0x03#8 a3
  | 3 => gmul 0x03#8 a0 ^^^ a1 ^^^ a2 ^^^ gmul 0x02#8 a3

/-- Row `r` of the product of the matrix `{0E,0B,0D,09}` with a column `a0..a3` (R166). -/
def invMixColumn (a0 a1 a2 a3 : Byte) (r : Fin 4) : Byte :=
  match r with
  | 0 => gmul 0x0E#8 a0 ^^^ gmul 0x0B#8 a1 ^^^ gmul 0x0D#8 a2 ^^^ gmul 0x09#8 a3
  | 1 => gmul 0x09#8 a0 ^^^ gmul 0x0E#8 a1 ^^^ gmul 0x0B#8 a2 ^^^ gmul 0x0D#8 a3
  | 2 => gmul 0x0D#8 a0 ^^^ gmul 0x09#8 a1 ^^^ gmul 0x0E#8 a2 ^^^ gmul 0x0B#8 a3
  | 3 => gmul 0x0B#8 a0 ^^^ gmul 0x0D#8 a1 ^^^ gmul 0x09#8 a2 ^^^ gmul 0x0E#8 a3

/-- `MixColumns(S)`: each column by the forward matrix (R165). -/
def mixColumns (s : Block) : Block :=
  ofCells fun r c => mixColumn (cell s 0 c) (cell s 1 c) (cell s 2 c) (cell s 3 c) r

/-- `InvMixColumns(S)`: each column by the inverse matrix (R166). -/
def invMixColumns (s : Block) : Block :=
  ofCells fun r c => invMixColumn (cell s 0 c) (cell s 1 c) (cell s 2 c) (cell s 3 c) r

/-- `AddRoundKey(S, r)`: XOR with round key `r` (R167). -/
def addRoundKey (ks : Vector Word 60) (r : Nat) (s : Block) : Block := xorBlock s (roundKey ks r)

/-- One middle round of the forward cipher, `ROUND = r` (R171). -/
def cipherRound (ks : Vector Word 60) (r : Nat) (s : Block) : Block :=
  addRoundKey ks r (mixColumns (shiftRows (subBytes s)))

/-- Rounds 1 to `n` of the forward cipher, ascending (R171). -/
def cipherRounds (ks : Vector Word 60) : Nat → Block → Block
  | 0, s => s
  | n + 1, s => cipherRound ks (n + 1) (cipherRounds ks n s)

/-- `Cipher(B)` with `NR = nr`: the final round has no `MixColumns` (R171). -/
def cipher (ks : Vector Word 60) (nr : Nat) (b : Block) : Block :=
  addRoundKey ks nr (shiftRows (subBytes (cipherRounds ks (nr - 1) (addRoundKey ks 0 b))))

/-- One middle round of the inverse cipher, `ROUND = r`: `AddRoundKey` stands before `InvMixColumns` (R172). -/
def invCipherRound (ks : Vector Word 60) (r : Nat) (s : Block) : Block :=
  invMixColumns (addRoundKey ks r (invSubBytes (invShiftRows s)))

/-- Rounds `n` down to 1 of the inverse cipher (R172). -/
def invCipherRounds (ks : Vector Word 60) : Nat → Block → Block
  | 0, s => s
  | n + 1, s => invCipherRounds ks n (invCipherRound ks (n + 1) s)

/-- `InvCipher(B)` with `NR = nr`: the last step has no `InvMixColumns` (R172). -/
def invCipher (ks : Vector Word 60) (nr : Nat) (b : Block) : Block :=
  addRoundKey ks 0 (invSubBytes (invShiftRows (invCipherRounds ks (nr - 1) (addRoundKey ks nr b))))

end Sys2Proof.Machine
end

