-- ==== Sys2Proof/Config.lean ====
section
/-! DEFINITION. The values the spec leaves open. Each is an uninterpreted constant: no proof can see what
it is, so a theorem about it holds for every value.

The only open VALUES of the spec are the contents of the four internal sequencing registers between
commands (10_state.md R39; 93_implementation_defined.md U1, treatment "any value"). Each draw is indexed by
the counter `State.freeIdx`. The open PARAMETERS `LAT_INIT`, `LAT_BLOCK`, `LAT_OTHER` and `AES_BASE` have
no constant here: the transaction-level reading takes the latencies as zero (R296) and `AES_BASE` affects
no rule (R68). Both are in NOTES.md's Scope. -/

namespace Sys2Proof

/-- The contents of `KSI` (6 bits) after the `n`-th time they become unspecified (R39, U1). Log entry 1. -/
opaque Config.freeKsi : Nat → BitVec 6

/-- The contents of `TEMP` (32 bits) after the `n`-th time they become unspecified (R39, U1). Log entry 1. -/
opaque Config.freeTemp : Nat → Word

/-- The contents of `RCON` (8 bits) after the `n`-th time they become unspecified (R39, U1). Log entry 1. -/
opaque Config.freeRcon : Nat → Byte

/-- The contents of `ROUND` (4 bits) after the `n`-th time they become unspecified (R39, U1). Log entry 1. -/
opaque Config.freeRound : Nat → BitVec 4

end Sys2Proof
end

