-- ==== Sys2Proof/Machine/Ops.lean ====
section
/-! DEFINITION. The operations on the state that the commands share: ending with an error, clearing the
schedule, emitting a block, leaving the sequencing registers unspecified, and reset.

The core has no exception that saves a return state or jumps: an error is the result code of the command
that detects it, and `State.fail` is its ONE entry (60_exceptions.md R263). Nothing returns from it
(60_exceptions.md R263, R264). -/

namespace Sys2Proof.Machine

/-- `fail(code)`: `ERR <- code; OUT_COUNT <- 0`, and nothing else (R263). -/
def State.fail (s : State) (code : ErrCode) : State := { s with err := code, outCount := 0 }

/-- `ClearKS()` (R136). -/
def State.clearKS (s : State) : State :=
  { s with ks := Vector.replicate 60 0#32, ksValid := false, nk := 0, nr := 0, stream := .idle }

/-- The success of a command that emits the first `n` bytes of `b`: all 16 bytes of `DOUT` are written (R27).
`n` is 0 only for a `DEC_FINAL` with a full block of padding, which writes `DOUT` all the same (R207; log entry 16). -/
def State.emit (s : State) (b : Block) (n : Fin 17) : State :=
  { s with dout := blockWords b, outCount := n, err := .none }

/-- The success of a command that emits nothing: `DOUT` keeps its contents (R27, R299; `execDecFinal` for the one
exception, log entry 16). -/
def State.emitNothing (s : State) : State := { s with outCount := 0, err := .none }

/-- The boundary of a command that ran or may have run the internal units: `KSI`, `TEMP`, `RCON` and `ROUND` hold
unspecified values, each a fresh free value (R39, U1; log entry 1). -/
def State.sequencersFree (s : State) : State :=
  { s with ksi := Config.freeKsi s.freeIdx, temp := Config.freeTemp s.freeIdx, rcon := Config.freeRcon s.freeIdx,
           round := Config.freeRound s.freeIdx, freeIdx := s.freeIdx + 1 }

/-- Reset: every element of R20 takes its reset value, and the four sequencing registers are unspecified (R242,
R290). The host's side (`pending`, `replies`) is not the core's and stays. -/
def State.toReset (s : State) : State :=
  { State.reset with pending := s.pending, replies := s.replies, freeIdx := s.freeIdx }.sequencersFree

end Sys2Proof.Machine
end

