-- ==== Sys2Proof/Machine/Cbc.lean ====
section
/-! DEFINITION. The six commands of the CBC mode controller (43_cbc_stream.md R202 to R208). Each checks in
the order its rule writes, which is the priority of 60_exceptions.md R262. -/

namespace Sys2Proof.Machine

/-- `ENC_START` (R202). -/
def execEncStart (s : State) : Host.Outcome State Fault Refusal :=
  if s.ksValid = false then .next (s.fail .noKey)
  else
    let v := ivBlock s
    .next ({ s with cv := v, stream := .encRun }.emit v 16).sequencersFree

/-- `ENC_BLOCK` (R203). -/
def execEncBlock (s : State) : Host.Outcome State Fault Refusal :=
  if s.ksValid = false then .next (s.fail .noKey)
  else if s.stream ≠ .encRun then .next (s.fail .badSequence)
  else
    let c := cipher s.ks s.nr.val (xorBlock (inputBlock s) s.cv)
    .next ({ s with state := c, cv := c }.emit c 16).sequencersFree

/-- `ENC_FINAL(n)` (R204). -/
def execEncFinal (len : BitVec 6) (s : State) : Host.Outcome State Fault Refusal :=
  if 15 < len.toNat then .next (s.fail .illegalCommand)
  else if s.ksValid = false then .next (s.fail .noKey)
  else if s.stream ≠ .encRun then .next (s.fail .badSequence)
  else
    let d := pad (inputBlock s) len.toNat
    let c := cipher s.ks s.nr.val (xorBlock d s.cv)
    .next ({ s with state := c, cv := c, stream := .done }.emit c 16).sequencersFree

/-- `DEC_START(n)` (R206). -/
def execDecStart (len : BitVec 6) (s : State) : Host.Outcome State Fault Refusal :=
  if 16 < len.toNat then .next (s.fail .illegalCommand)
  else if s.ksValid = false then .next (s.fail .noKey)
  else if len.toNat < 16 then .next ({ s with stream := .failed }.fail .streamTruncated)
  else .next { s with cv := inputBlock s, stream := .decRun }.emitNothing.sequencersFree

/-- `DEC_BLOCK` (R208). -/
def execDecBlock (s : State) : Host.Outcome State Fault Refusal :=
  if s.ksValid = false then .next (s.fail .noKey)
  else if s.stream ≠ .decRun then .next (s.fail .badSequence)
  else
    let c := inputBlock s
    let o := invCipher s.ks s.nr.val c
    .next ({ s with nextIv := c, state := o, cv := c }.emit (xorBlock o s.cv) 16).sequencersFree

/-- `DEC_FINAL(n)` (R207): the padding is checked only after the block is decrypted, and `CV` is advanced either way.

DEDUCED (log entry 16; unsafe for a claim about the contents of `DOUT`): with valid padding of length 16 `OUT_COUNT` is
0 and yet `DOUT` is written, as R207 and programs P3 and P4 say, though R27, R299 and D27 would have it kept.

DEDUCED (log entry 17; unsafe for a claim about these two registers): with invalid padding `NEXT_IV` and `STATE` are
written too, as R207 does before it looks at the padding, though R263 and D10 do not list them. -/
def execDecFinal (len : BitVec 6) (s : State) : Host.Outcome State Fault Refusal :=
  if 16 < len.toNat then .next (s.fail .illegalCommand)
  else if s.ksValid = false then .next (s.fail .noKey)
  else if s.stream ≠ .decRun then .next (s.fail .badSequence)
  else if len.toNat < 16 then .next ({ s with stream := .failed }.fail .streamTruncated)
  else
    let c := inputBlock s
    let o := invCipher s.ks s.nr.val c
    let p := xorBlock o s.cv
    if padValid p then
      .next ({ s with nextIv := c, state := o, cv := c, stream := .done }.emit p (plainCount p)).sequencersFree
    else
      .next ({ s with nextIv := c, state := o, cv := c, stream := .failed }.fail .paddingInvalid).sequencersFree

end Sys2Proof.Machine
end

