-- ==== Sys2Proof/Machine/Control.lean ====
section
/-! DEFINITION. The commands without a family: `NOP` and `RESET` (44_control.md R241, R242). -/

namespace Sys2Proof.Machine

/-- `NOP`: no state changes (R241). -/
def execNop (s : State) : Host.Outcome State Fault Refusal := .next s

/-- `RESET`: every state element takes its reset value (R242). -/
def execReset (s : State) : Host.Outcome State Fault Refusal := .next s.toReset

end Sys2Proof.Machine
end

