-- ==== Sys2Proof/Machine/Ecb.lean ====
section
/-! DEFINITION. The single-block commands `ECB_ENC` and `ECB_DEC` (42_block_transform.md R173, R174). -/

namespace Sys2Proof.Machine

/-- `ECB_ENC` (R173). -/
def execEcbEnc (s : State) : Host.Outcome State Fault Refusal :=
  if s.ksValid = false then .next (s.fail .noKey)
  else
    let o := cipher s.ks s.nr.val (inputBlock s)
    .next ({ s with state := o }.emit o 16).sequencersFree

/-- `ECB_DEC` (R174). -/
def execEcbDec (s : State) : Host.Outcome State Fault Refusal :=
  if s.ksValid = false then .next (s.fail .noKey)
  else
    let o := invCipher s.ks s.nr.val (inputBlock s)
    .next ({ s with state := o }.emit o 16).sequencersFree

end Sys2Proof.Machine
end

