-- ==== Sys2Proof/Machine/Key.lean ====
section
/-! DEFINITION. The `INIT` command (41_key_schedule.md R136). -/

namespace Sys2Proof.Machine

/-- The success of `INIT` for a variant: `KS`, `NK`, `NR`, `KS_VALID` and `STREAM` are written (R136). -/
def State.loadKey (s : State) (v : Variant) : State :=
  { s with
    ks := expandKey v.keyWords.val ((keyBytes s).take (4 * v.keyWords.val))
    nk := v.keyWords
    nr := v.rounds
    ksValid := true
    stream := .idle }

/-- `INIT(LEN, KEYBITS)` (R136). -/
def execInit (len : BitVec 6) (keybits : BitVec 9) (s : State) : Host.Outcome State Fault Refusal :=
  if 32 < len.toNat then .next (s.fail .illegalCommand)
  else
    match requestedVariant keybits with
    | none => .next (s.clearKS.fail .unsupportedVariant)
    | some v =>
      if len.toNat < 4 * v.keyWords.val then .next (s.clearKS.fail .invalidKeyLength)
      else .next (s.loadKey v).emitNothing.sequencersFree

end Sys2Proof.Machine
end

