-- ==== Sys2Proof/Machine/Dispatch.lean ====
section
/-! DEFINITION. The dispatch of a decoded command to its meaning (44_control.md R245): one arm per command. -/

namespace Sys2Proof.Machine

/-- Performs one command (R245). -/
def exec (i : Instr) (s : State) : Host.Outcome State Fault Refusal :=
  match i with
  | .nop _ _ => Sys2Proof.Machine.execNop s
  | .init len keybits => Sys2Proof.Machine.execInit len keybits s
  | .ecbEnc _ _ => Sys2Proof.Machine.execEcbEnc s
  | .ecbDec _ _ => Sys2Proof.Machine.execEcbDec s
  | .encStart _ _ => Sys2Proof.Machine.execEncStart s
  | .encBlock _ _ => Sys2Proof.Machine.execEncBlock s
  | .encFinal len _ => Sys2Proof.Machine.execEncFinal len s
  | .decStart len _ => Sys2Proof.Machine.execDecStart len s
  | .decBlock _ _ => Sys2Proof.Machine.execDecBlock s
  | .decFinal len _ => Sys2Proof.Machine.execDecFinal len s
  | .reset _ _ => Sys2Proof.Machine.execReset s

end Sys2Proof.Machine
end

