-- ==== Sys2Proof/Machine/Flags.lean ====
section
/-! DEFINITION. The status of the core as the host reads it: the field codes and the `STATUS` word
(10_state.md R31). There are no arithmetic flags. -/

namespace Sys2Proof.Machine

/-- The code of a stream state in `STATUS[4:2]` (R33). -/
def StreamState.code : StreamState → BitVec 3
  | .idle => 0#3
  | .encRun => 1#3
  | .decRun => 2#3
  | .done => 3#3
  | .failed => 4#3

/-- The code of a result in `STATUS[11:8]` (R260). -/
def ErrCode.code : ErrCode → BitVec 4
  | .none => 0#4
  | .invalidKeyLength => 1#4
  | .unsupportedVariant => 2#4
  | .streamTruncated => 3#4
  | .paddingInvalid => 4#4
  | .noKey => 5#4
  | .badSequence => 6#4
  | .illegalCommand => 7#4

/-- `KS_WORDS`: `4·(NR+1)` when `KS_VALID = 1`, else 0 (R31). -/
def ksWords (s : State) : Nat := if s.ksValid then 4 * (s.nr.val + 1) else 0

/-- `STATUS = BUSY | (KS_VALID << 1) | (STREAM << 2) | (ERR << 8) | (KS_WORDS << 16) | (OUT_COUNT << 24)` (R31). -/
def status (s : State) : Word :=
  (BitVec.ofBool s.busy).setWidth 32
    ||| ((BitVec.ofBool s.ksValid).setWidth 32 <<< 1)
    ||| (s.stream.code.setWidth 32 <<< 2)
    ||| (s.err.code.setWidth 32 <<< 8)
    ||| (BitVec.ofNat 32 (ksWords s) <<< 16)
    ||| (BitVec.ofNat 32 s.outCount.val <<< 24)

end Sys2Proof.Machine
end

