-- ==== Sys2Proof/Machine/Port.lean ====
section
/-! DEFINITION. The host register port: the register map (10_state.md R21), host reads and writes
(44_control.md R243, R244), the performing of a command word (R245), and one access of the outside world. -/

namespace Sys2Proof.Machine

/-- What a word index names (R21). -/
inductive PortReg where
  | ctrl
  | status
  | key (j : Fin 8)
  | iv (j : Fin 4)
  | din (j : Fin 4)
  | dout (j : Fin 4)
  | cv (j : Fin 4)
  | ks (j : Fin 60)
  | reserved
  deriving DecidableEq, Repr

/-- The register map (R21, R68). -/
def portReg (i : Index) : PortReg :=
  if i.toNat = 0x00 then .ctrl
  else if i.toNat = 0x01 then .status
  else if h : 0x04 ≤ i.toNat ∧ i.toNat ≤ 0x0B then .key ⟨i.toNat - 0x04, by omega⟩
  else if h : 0x0C ≤ i.toNat ∧ i.toNat ≤ 0x0F then .iv ⟨i.toNat - 0x0C, by omega⟩
  else if h : 0x10 ≤ i.toNat ∧ i.toNat ≤ 0x13 then .din ⟨i.toNat - 0x10, by omega⟩
  else if h : 0x14 ≤ i.toNat ∧ i.toNat ≤ 0x17 then .dout ⟨i.toNat - 0x14, by omega⟩
  else if h : 0x18 ≤ i.toNat ∧ i.toNat ≤ 0x1B then .cv ⟨i.toNat - 0x18, by omega⟩
  else if h : 0x40 ≤ i.toNat ∧ i.toNat ≤ 0x7B then .ks ⟨i.toNat - 0x40, by omega⟩
  else .reserved

/-- The key-schedule read window (R37): `KS[k]` while `KS_VALID = 1` and `k < 4·(NR+1)`, else 0. -/
def ksWindow (s : State) (k : Fin 60) : Word :=
  if s.ksValid = true ∧ k.val < 4 * (s.nr.val + 1) then s.ks[k] else 0#32

/-- `HostRead(i)` (R243): write-only registers and reserved indices read 0. -/
def hostRead (i : Index) (s : State) : Word :=
  match portReg i with
  | .ctrl => 0#32
  | .status => status s
  | .key _ => 0#32
  | .iv j => s.iv[j]
  | .din j => s.din[j]
  | .dout j => s.dout[j]
  | .cv j => (blockWords s.cv)[j]
  | .ks k => ksWindow s k
  | .reserved => 0#32

/-- `Perform(w)` (R245): a word that is no command ends with `ILLEGAL_COMMAND` (R82, R87, R88). -/
def perform (w : Word) (s : State) : Host.Outcome State Fault Refusal :=
  match decode w with
  | .ok i => exec i s
  | .error _ => .next (s.fail .illegalCommand)

/-- `HostWrite(i, v)` (R244): writes to read-only registers and reserved indices are ignored. -/
def hostWrite (i : Index) (v : Word) (s : State) : Host.Outcome State Fault Refusal :=
  match portReg i with
  | .ctrl => perform v s
  | .key j => .next { s with keybuf := s.keybuf.set j v }
  | .iv j => .next { s with iv := s.iv.set j v }
  | .din j => .next { s with din := s.din.set j v }
  | .status => .next s
  | .dout _ => .next s
  | .cv _ => .next s
  | .ks _ => .next s
  | .reserved => .next s

/-- Whether the host may make this access while `BUSY = 1`: it may only read `STATUS` (R298). Hardware reset is no
host access; it abandons a command in progress (R290). -/
def allowedWhileBusy : Access → Bool
  | .read i => decide (portReg i = .status)
  | .write _ _ => false
  | .hardwareReset => true

/-- One access of the outside world (R246, R290). An access that R298 forbids is a fault. That hardware reset is an access
like the others is DEDUCED (log entry 7). -/
def access (a : Access) (s : State) : Host.Outcome State Fault Refusal :=
  if s.busy = true ∧ allowedWhileBusy a = false then .fault .hostAccessWhileBusy
  else
    match a with
    | .read i => .next { s with replies := hostRead i s :: s.replies }
    | .write i v => hostWrite i v s
    | .hardwareReset => .next s.toReset

end Sys2Proof.Machine
end

