-- ==== Sys2Proof/Machine/Step.lean ====
section
/-! DEFINITION. One step of the machine: the next pending access of the outside world (44_control.md R246). -/

namespace Sys2Proof.Machine

/-- One step (R246): the first pending access is taken off and made. The core has no step of its own between
accesses: with none pending it waits and nothing changes (DESIGN CHOICE, log entry 3). -/
def step (s : State) : Host.Outcome State Fault Refusal :=
  match s.pending with
  | [] => .next s
  | a :: rest => access a { s with pending := rest }

/-- `s` with the command word `w` as the host's very next access: a write to `CTRL` (R32, R80). `BUSY` is 0, as it is
whenever the host may write (R298). DESIGN CHOICE, log entry 8. -/
def State.withFetchWord (s : State) (nbits w : Nat) : State :=
  { s with pending := .write 0#7 (BitVec.ofNat 32 (w % 2 ^ nbits)) :: s.pending, busy := false }

end Sys2Proof.Machine
end

