-- ==== Sys2Proof/Safety.lean ====
section
/-! DEFINITION. What claims about runs are stated in: the invariant of the core, runs and their output
(70_reset_and_hazards.md R303, R304), the host's access sequences for a stream (43_cbc_stream.md R205, R209)
and the host's duties (70_reset_and_hazards.md R305). -/

namespace Sys2Proof.Machine

/-- What holds of every state a run from reset reaches. -/
structure Consistent (s : State) : Prop where
  /-- `BUSY` is 0 between commands (R40). -/
  idle : s.busy = false
  /-- With `KS_VALID = 1`, `NK` and `NR` are those of one variant and `KS` holds the expansion of some key of that
  variant (R35, R36, R37). -/
  keyed : s.ksValid = true →
    ∃ (v : Variant) (key : List Byte), key.length = 4 * v.keyWords.val ∧ s.nk = v.keyWords ∧ s.nr = v.rounds
      ∧ s.ks = expandKey v.keyWords.val key
  /-- With `KS_VALID = 0`, `NK`, `NR` and `KS` are 0 and no stream has started (R36, R37, R200). -/
  unkeyed : s.ksValid = false →
    s.nk = 0 ∧ s.nr = 0 ∧ s.ks = Vector.replicate 60 0#32 ∧ s.stream = .idle
  /-- After a failed command nothing is output (R28, R263). -/
  failedSilent : s.err ≠ .none → s.outCount = 0

/-- The bytes of `DOUT` that are output: its first `OUT_COUNT` bytes (R27, R303). -/
def outBytes (s : State) : List Byte := (wordsBlock s.dout).toList.take s.outCount.val

/-! ### Runs (70_reset_and_hazards.md R303) -/

/-- One access of a run, with the states before and after it, without what is pending there. -/
structure Made where
  before : State
  access : Access
  after : State
  deriving DecidableEq, Repr

/-- A run (R303): the accesses made from `s`, one a step. The state at its end, and what was made. A run that faults is
not admitted (R298). -/
def session : List Access → State → Option (State × List Made)
  | [], s => some ({ s with pending := [] }, [])
  | a :: as, s =>
    match step { s with pending := a :: as } with
    | .next t =>
      (session as t).map fun r =>
        (r.1, { before := { s with pending := [] }, access := a, after := { t with pending := [] } } :: r.2)
    | .fault _ => none
    | .refused _ => none

/-- Whether an access is a command other than `NOP`: a `CTRL` write, of a legal word or not. -/
def isCommand : Access → Bool
  | .read _ => false
  | .hardwareReset => false
  | .write i w =>
    decide (portReg i = .ctrl) &&
      (match decode w with
       | .ok (.nop _ _) => false
       | _ => true)

/-- The command an access issues; `NOP` and words that are no command are none. -/
def issued : Access → Option Instr
  | .read _ => none
  | .hardwareReset => none
  | .write i w =>
    if portReg i = .ctrl then
      match decode w with
      | .ok (.nop _ _) => none
      | .ok i => some i
      | .error _ => none
    else none

/-- The bytes an access adds to the output of its stream: the first `OUT_COUNT` bytes of `DOUT` after a command (R303).
`NOP` produces nothing (R28, R34): DEDUCED, log entry 10. -/
def Made.output (m : Made) : List Byte := if isCommand m.access then outBytes m.after else []

/-! ### Streams (R303) -/

inductive StreamKind where
  | encryption
  | decryption
  deriving DecidableEq, Repr

/-- How a stream stands (R303). -/
inductive StreamEnd where
  /-- It has ended normally: `STREAM = DONE` and `ERR = NONE`. -/
  | normally
  /-- It has failed: `STREAM = FAILED`; `ERR` is the code. -/
  | failed (code : ErrCode)
  /-- `INIT`, a reset or a new `START` took `STREAM` to another value. -/
  | replaced
  /-- It is still open. -/
  | notEnded
  deriving DecidableEq, Repr

/-- A stream of a run (R303): the accesses from its `START` to the command that ends it, the output of them, and how it
stands after the last of them. -/
structure StreamRun where
  kind : StreamKind
  made : List Made
  output : List Byte
  ending : StreamEnd
  deriving DecidableEq, Repr

/-- The stream an access starts: a successful `ENC_START` or `DEC_START`, or a `DEC_START` that finds too few bytes (R200,
the first row of R209). A `START` refused with `NO_KEY` starts none. -/
def Made.opens (m : Made) : Option StreamKind :=
  match issued m.access with
  | some (.encStart _ _) => if m.after.err = .none then some .encryption else none
  | some (.decStart _ _) =>
    if m.after.err = .none ∨ m.after.err = .streamTruncated then some .decryption else none
  | _ => none

/-- How an open stream stands in a state, by `STREAM` and `ERR` alone (R303). -/
def standing (t : State) : StreamEnd :=
  match t.stream, t.err with
  | .done, .none => .normally
  | .failed, code => .failed code
  | _, _ => .notEnded

/-- Whether an access takes `STREAM` away from the open stream: `INIT`, `RESET`, hardware reset, a new `START` (R303). -/
def Made.replaces (m : Made) : Bool :=
  match m.access, issued m.access with
  | .hardwareReset, _ => true
  | _, some (.init _ _) => true
  | _, some (.reset _ _) => true
  | _, _ => m.opens.isSome

/-- How the open stream stands after one more access. -/
def Made.closing (m : Made) : StreamEnd :=
  match standing m.after with
  | .notEnded => if m.replaces then .replaced else .notEnded
  | e => e

/-- A stream with its `START` made. -/
def StreamRun.start (k : StreamKind) (m : Made) : StreamRun :=
  { kind := k, made := [m], output := m.output, ending := standing m.after }

/-- An open stream with one more access; one that has ended takes no more. What a new `START` emits belongs to the
new stream alone: DEDUCED, log entry 10. -/
def StreamRun.extend (r : StreamRun) (m : Made) : StreamRun :=
  if r.ending = .notEnded then
    { r with
      made := r.made ++ [m]
      output := r.output ++ (if m.opens.isSome then [] else m.output)
      ending := m.closing }
  else r

/-- The streams so far, the latest first, after one more access. -/
def followStreams (rs : List StreamRun) (m : Made) : List StreamRun :=
  match m.opens with
  | some k => StreamRun.start k m :: rs.modifyHead (·.extend m)
  | none => rs.modifyHead (·.extend m)

/-- The streams of a run, in order (R303). Only the last can be one that has not ended. -/
def streams (ms : List Made) : List StreamRun := (ms.foldl followStreams []).reverse

/-- The clean launch of R304: not busy, a key loaded, and no stream open. -/
def cleanLaunch (s : State) : Prop :=
  s.busy = false ∧ s.ksValid = true ∧ (s.stream = .idle ∨ s.stream = .done ∨ s.stream = .failed)

/-! ### The host's access sequences (30_encoding.md R91; 43_cbc_stream.md R205, R209) -/

/-- Four writes of a block's words to the registers from word index `base` on: `LDIV` at 0x0C, `LDIN` at 0x10 (R91). -/
def writeBlock (base : Index) (b : Block) : List Access :=
  [.write base (blockWords b)[0], .write (base + 1) (blockWords b)[1], .write (base + 2) (blockWords b)[2],
   .write (base + 3) (blockWords b)[3]]

/-- `LDIV` (R91). -/
def loadIv (b : Block) : List Access := writeBlock 0x0C#7 b

/-- `LDIN` (R91). -/
def loadDin (b : Block) : List Access := writeBlock 0x10#7 b

/-- A command, then `RDOUT`: `STATUS` and `DOUT0..DOUT3` (R91, R292, R299). -/
def issue (i : Instr) : List Access :=
  [.write 0x00#7 (encode i), .read 0x01#7, .read 0x14#7, .read 0x15#7, .read 0x16#7, .read 0x17#7]

/-- R205: the accesses that encrypt the plaintext `blocks ++ tail[0..n-1]`, `n ≤ 15`, under `iv`. -/
def encAccesses (iv : Block) (blocks : List Block) (tail : Block) (n : Nat) : List Access :=
  loadIv iv ++ issue (.encStart 0 0)
    ++ blocks.flatMap (fun b => loadDin b ++ issue (.encBlock 0 0))
    ++ loadDin tail ++ issue (.encFinal (BitVec.ofNat 6 n) 0)

/-- R209, after the IV: the ciphertext blocks `cs` and then `n ≤ 15` more bytes, those of `rest`. A block followed by
at least one more byte goes to `DEC_BLOCK`; what remains, 0..16 bytes, goes to `DEC_FINAL`. -/
def decBody (rest : Block) (n : Nat) : List Block → List Access
  | [] => loadDin rest ++ issue (.decFinal (BitVec.ofNat 6 n) 0)
  | c :: cs =>
    if cs = [] ∧ n = 0 then loadDin c ++ issue (.decFinal 16 0)
    else loadDin c ++ issue (.decBlock 0 0) ++ decBody rest n cs

/-- R209: the accesses that decrypt the stream `iv ++ cs ++ rest[0..n-1]`, `n ≤ 15`. -/
def decAccesses (iv : Block) (cs : List Block) (rest : Block) (n : Nat) : List Access :=
  loadDin iv ++ issue (.decStart 16 0) ++ decBody rest n cs

/-- The CBC encryption of blocks from the chaining value `cv` on (R203): each block is XORed with the chaining value
and enciphered, and the result is the next chaining value. -/
def cbcEncrypt (ks : Vector Word 60) (nr : Nat) : Block → List Block → List Block
  | _, [] => []
  | cv, b :: bs =>
    let c := cipher ks nr (xorBlock b cv)
    c :: cbcEncrypt ks nr c bs

/-- The CBC decryption of blocks from the chaining value `cv` on (R208). -/
def cbcDecrypt (ks : Vector Word 60) (nr : Nat) : Block → List Block → List Block
  | _, [] => []
  | cv, c :: cs => xorBlock (invCipher ks nr c) cv :: cbcDecrypt ks nr c cs

/-- The bytes of a list of blocks, in order. -/
def flatBytes (bs : List Block) : List Byte := bs.flatMap Vector.toList

/-! ### The host's duties (R305) -/

/-- The duties of R305, by name. The core checks none of them and has a defined response to a host that breaks one
(U5 to U7); a claim that needs them says so. Log entry 6. -/
inductive HostDuty where
  /-- HD1 key load: use the variant it intends, and read `STATUS` after `INIT`. -/
  | hd1
  /-- HD2 stream start (encrypt): give a fresh IV. -/
  | hd2
  /-- HD3 stream start (decrypt): give the true count in `DEC_START len`. -/
  | hd3
  /-- HD4 each block: write a new block first, for ECB too; `DEC_BLOCK` only if at least one more byte follows. -/
  | hd4
  /-- HD5 end of stream: the true count, and exactly one final command per stream. -/
  | hd5
  /-- HD6 completion: after a `CTRL` write poll `STATUS` until it shows `BUSY = 0`, and touch nothing else before. -/
  | hd6
  /-- HD7 output: read `OUT_COUNT` bytes of `DOUT` before the next command. -/
  | hd7
  /-- HD8 key change: no `INIT` in the middle of a stream. -/
  | hd8
  deriving DecidableEq, Repr

/-- All eight duties. -/
def HostDuty.all : List HostDuty := [.hd1, .hd2, .hd3, .hd4, .hd5, .hd6, .hd7, .hd8]

/-- The host at one moment of a run. The first three fields are what it MEANS to do, which no access shows: a claim gives
them. The others are what it has done. -/
structure HostRecord where
  /-- The variants that its coming `INIT`s are for (HD1). -/
  keys : List Variant
  /-- The bytes in each coming stream: of the plaintext, or of the whole ciphertext stream with its IV (HD3, HD5). -/
  lengths : List Nat
  /-- The IVs that are no longer fresh (HD2). -/
  usedIvs : List Block
  /-- The bytes of the open stream that the core has not taken yet; none when no stream is open. -/
  left : Option Nat
  /-- `STATUS` was read after the last `INIT`. -/
  keyChecked : Bool
  /-- `STATUS` was read after the last command. -/
  statusRead : Bool
  /-- The words of `DOUT` read after the last command. -/
  doutRead : List (Fin 4)
  /-- The words of `DIN` written since a command took the block there. -/
  dinWritten : List (Fin 4)
  /-- A read of `STATUS` has shown `BUSY = 0` since the last `CTRL` write (R298). -/
  polled : Bool
  deriving DecidableEq, Repr

/-- The host at a clean launch (R304), with everything read that there was to read and nothing owed (DESIGN CHOICE, log
entry 15). -/
def HostRecord.start (keys : List Variant) (lengths : List Nat) (usedIvs : List Block) : HostRecord where
  keys := keys
  lengths := lengths
  usedIvs := usedIvs
  left := none
  keyChecked := true
  statusRead := true
  doutRead := [0, 1, 2, 3]
  dinWritten := []
  polled := true

/-- Whether the words `js` hold the first `n` bytes of a block. -/
def coversBytes (n : Nat) (js : List (Fin 4)) : Bool := decide (∀ j : Fin 4, 4 * j.val < n → j ∈ js)

/-- The record after a command. A command refused with `NO_KEY` or `BAD_SEQUENCE`, or a word that is none, took nothing
(DESIGN CHOICE, log entry 15). -/
def HostRecord.afterCommand (r : HostRecord) (m : Made) : HostRecord :=
  if m.after.err = .noKey ∨ m.after.err = .badSequence then r
  else
    match issued m.access with
    | some (.init _ _) => { r with keys := r.keys.tail, keyChecked := false, left := none }
    | some (.reset _ _) => { r with left := none, dinWritten := [] }
    | some (.encStart _ _) =>
      { r with usedIvs := ivBlock m.before :: r.usedIvs, lengths := r.lengths.tail, left := r.lengths.head? }
    | some (.decStart _ _) =>
      { r with
        lengths := r.lengths.tail
        left := if m.after.stream = .decRun then r.lengths.head?.map (· - 16) else none
        dinWritten := [] }
    | some (.encBlock _ _) | some (.decBlock _ _) => { r with left := r.left.map (· - 16), dinWritten := [] }
    | some (.encFinal _ _) | some (.decFinal _ _) => { r with left := none, dinWritten := [] }
    | some (.ecbEnc _ _) | some (.ecbDec _ _) => { r with dinWritten := [] }
    | some (.nop _ _) | none => r

/-- The record after one more access. A hardware reset discharges what the host still owed: the poll of HD6, the check of
HD1, the final command of HD5 (DESIGN CHOICE, log entry 15: the spec is silent). -/
def HostRecord.next (r : HostRecord) (m : Made) : HostRecord :=
  match m.access with
  | .hardwareReset => { r with left := none, keyChecked := true, dinWritten := [], polled := true }
  | .read i =>
    match portReg i with
    | .status => { r with keyChecked := true, statusRead := true, polled := r.polled || !m.before.busy }
    | .dout j => { r with doutRead := j :: r.doutRead }
    | _ => r
  | .write i _ =>
    match portReg i with
    | .din j => { r with dinWritten := j :: r.dinWritten }
    | .ctrl =>
      if isCommand m.access then { r.afterCommand m with statusRead := false, doutRead := [], polled := false }
      else { r with polled := false }
    | _ => r

/-- Whether the host may hand over the `n` last bytes of the stream that is open as `st`: they are all that is left, and
they stand in `DIN`. -/
def HostRecord.mayFinish (r : HostRecord) (st : StreamState) (n : Nat) (m : Made) : Bool :=
  decide (m.before.stream = st ∧ r.left = some n) && coversBytes n r.dinWritten

/-- Whether the host may hand over a full block of the stream that is open as `st`: at least `n` bytes are left, and a new
block stands in `DIN`. -/
def HostRecord.mayTakeBlock (r : HostRecord) (st : StreamState) (n : Nat) (m : Made) : Bool :=
  decide (m.before.stream = st ∧ r.left.any (fun k => n ≤ k) = true) && coversBytes 16 r.dinWritten

/-- Whether an access keeps a duty (R305), for a host with this record. -/
def HostRecord.keeps (r : HostRecord) (m : Made) (d : HostDuty) : Bool :=
  match d with
  | .hd1 =>
    (!isCommand m.access || r.keyChecked) &&
      (match issued m.access with
       | some (.init _ kb) => r.keys.head?.any fun v => decide (requestedVariant kb = some v)
       | _ => true)
  | .hd2 =>
    match issued m.access with
    | some (.encStart _ _) => decide (ivBlock m.before ∉ r.usedIvs)
    | _ => true
  | .hd3 =>
    match issued m.access with
    | some (.decStart len _) =>
      r.lengths.head?.any (fun n => decide (len.toNat = min 16 n)) && coversBytes len.toNat r.dinWritten
    | _ => true
  | .hd4 =>
    match issued m.access with
    | some (.encBlock _ _) => r.mayTakeBlock .encRun 16 m
    | some (.decBlock _ _) => r.mayTakeBlock .decRun 17 m
    | some (.ecbEnc _ _) | some (.ecbDec _ _) => coversBytes 16 r.dinWritten
    | _ => true
  | .hd5 =>
    match issued m.access with
    | some (.encFinal len _) => r.mayFinish .encRun len.toNat m
    | some (.decFinal len _) => r.mayFinish .decRun len.toNat m
    | some (.encStart _ _) | some (.decStart _ _) => r.left.isNone && !r.lengths.isEmpty
    | some (.reset _ _) => r.left.isNone
    | _ => true
  | .hd6 => (r.polled && !m.before.busy) || allowedWhileBusy m.access
  | .hd7 =>
    !isCommand m.access || m.before.outCount == 0 ||
      (r.statusRead && coversBytes m.before.outCount.val r.doutRead)
  | .hd8 =>
    match issued m.access with
    | some (.init _ _) => decide (m.before.stream ≠ .encRun ∧ m.before.stream ≠ .decRun)
    | _ => true

/-- Whether a run keeps every duty, for a host with this record: each access does, and at the end no stream waits for its
final command (HD5), no `INIT` for its check (HD1) and no `CTRL` write for its poll (HD6). -/
def dutiful : HostRecord → List Made → Bool
  | r, [] => r.left.isNone && r.keyChecked && r.polled
  | r, m :: ms => HostDuty.all.all (r.keeps m) && dutiful (r.next m) ms

end Sys2Proof.Machine
end

