-- ==== Sys2Proof/Certificates/Slice0/Obligations.lean ====
section
/-! DEFINITION. The statements for the provers, from the numbered rules of spec/.

A result statement is written `∃ k tm rc rd n, … = .next { s with …, ksi := k, temp := tm, rcon := rc, round := rd,
freeIdx := n }`: the rule fixes every field but the four sequencing registers, which are unspecified at a command's end
(R39, U1), so no statement rests on a free value (log entry 1). -/

open Sys2Proof Sys2Proof.Machine

/-! ### Tables of the spec that statements compare the machine with -/

/-- R200's table: the stream state after a command, from the state before it and the command's result code. -/
def SpecTable.streamAfter (i : Instr) (old : StreamState) (result : ErrCode) : StreamState :=
  match i with
  | .nop _ _ | .ecbEnc _ _ | .ecbDec _ _ => old
  | .init _ _ => if result = .illegalCommand then old else .idle
  | .reset _ _ => .idle
  | .encStart _ _ => if result = .none then .encRun else old
  | .encBlock _ _ => old
  | .encFinal _ _ => if result = .none then .done else old
  | .decStart _ _ =>
    if result = .none then .decRun else if result = .streamTruncated then .failed else old
  | .decBlock _ _ => old
  | .decFinal _ _ =>
    if result = .none then .done
    else if result = .streamTruncated ∨ result = .paddingInvalid then .failed else old

/-- R200's column "Required `STREAM`". -/
def SpecTable.requiredStream (i : Instr) : Option StreamState :=
  match i with
  | .encBlock _ _ | .encFinal _ _ => some .encRun
  | .decBlock _ _ | .decFinal _ _ => some .decRun
  | .nop _ _ | .init _ _ | .ecbEnc _ _ | .ecbDec _ _ | .encStart _ _ | .decStart _ _ | .reset _ _ => none

/-- R84's column "Legal": the greatest `LEN` of a command that has a range. -/
def SpecTable.maxLen (i : Instr) : Nat :=
  match i with
  | .init _ _ => 32
  | .encFinal _ _ => 15
  | .decStart _ _ | .decFinal _ _ => 16
  | .nop _ _ | .ecbEnc _ _ | .ecbDec _ _ | .encStart _ _ | .encBlock _ _ | .decBlock _ _ | .reset _ _ => 63

/-- Whether a command needs a key schedule: the column "Raised by" of `NO_KEY` in R260. -/
def SpecTable.needsKey (i : Instr) : Bool :=
  match i with
  | .ecbEnc _ _ | .ecbDec _ _ | .encStart _ _ | .encBlock _ _ | .encFinal _ _ | .decStart _ _ | .decBlock _ _
  | .decFinal _ _ => true
  | .nop _ _ | .init _ _ | .reset _ _ => false

/-- The plaintext block that `DEC_FINAL` and `DEC_BLOCK` compute: `InvCipher(DIN) ^ CV` (R207, R208). -/
def SpecTable.decrypted (s : State) : Block :=
  xorBlock (invCipher s.ks s.nr.val (wordsBlock s.din)) s.cv

/-- R260 and R262: every error that applies to a command in a state, in the order of priority. -/
def SpecTable.errors (i : Instr) (s : State) : List ErrCode :=
  (if SpecTable.maxLen i < i.len.toNat then [.illegalCommand] else [])
  ++ (match i with
      | .init len kb =>
        (if kb ≠ 128#9 ∧ kb ≠ 192#9 ∧ kb ≠ 256#9 then [ErrCode.unsupportedVariant] else [])
        ++ (if 8 * len.toNat < kb.toNat then [ErrCode.invalidKeyLength] else [])
      | _ => [])
  ++ (if SpecTable.needsKey i = true ∧ s.ksValid = false then [.noKey] else [])
  ++ (match SpecTable.requiredStream i with
      | some st => if s.stream = st then [] else [ErrCode.badSequence]
      | none => [])
  ++ (match i with
      | .decStart len _ => if len.toNat < 16 then [ErrCode.streamTruncated] else []
      | .decFinal len _ =>
        (if len.toNat < 16 then [ErrCode.streamTruncated] else [])
        ++ (if padValid (SpecTable.decrypted s) = false then [ErrCode.paddingInvalid] else [])
      | _ => [])

/-! ### Encoding -/

/-- R92: the example words decode to the commands they stand for. A sanity statement on literal words. -/
def Obligations.ExampleWordsDecode : Prop :=
  decode 0x00000000#32 = .ok (.nop 0 0)
  ∧ decode 0x00801001#32 = .ok (.init 16 128)
  ∧ decode 0x00C01801#32 = .ok (.init 24 192)
  ∧ decode 0x01002001#32 = .ok (.init 32 256)
  ∧ decode 0x00000002#32 = .ok (.ecbEnc 0 0)
  ∧ decode 0x00000003#32 = .ok (.ecbDec 0 0)
  ∧ decode 0x00000004#32 = .ok (.encStart 0 0)
  ∧ decode 0x00000005#32 = .ok (.encBlock 0 0)
  ∧ decode 0x00000006#32 = .ok (.encFinal 0 0)
  ∧ decode 0x00000D06#32 = .ok (.encFinal 13 0)
  ∧ decode 0x00001007#32 = .ok (.decStart 16 0)
  ∧ decode 0x00000008#32 = .ok (.decBlock 0 0)
  ∧ decode 0x00001009#32 = .ok (.decFinal 16 0)
  ∧ decode 0x00000A09#32 = .ok (.decFinal 10 0)
  ∧ decode 0x0000000F#32 = .ok (.reset 0 0)
  ∧ decode 0x00000010#32 = .error .reservedBit
  ∧ decode 0x0000000A#32 = .error .reservedOp

/-- R81, R82: for EVERY command with a legal `LEN`, at every value of both operand fields, decoding its word gives it back. -/
def Obligations.DecodeEncodeRoundTrip : Prop :=
  ∀ i : Instr, i.wellFormed = true → decode (encode i) = .ok i

/-- R81, R82: every legal word stands for exactly one command, which is well formed and encodes to that word. -/
def Obligations.EncodeDecodeRoundTrip : Prop :=
  ∀ (w : Word) (i : Instr), decode w = .ok i → i.wellFormed = true ∧ encode i = w

/-- R82, with the `LEN` ranges of R84: what every one of the 2^32 words decodes to. -/
def Obligations.DecodeIsTheOpcodeMap : Prop :=
  ∀ w : Word,
    (w &&& 0xFE00C0F0#32 ≠ 0#32 → decode w = .error .reservedBit)
    ∧ (w &&& 0xFE00C0F0#32 = 0#32 →
        ∀ (op len kb : Nat), op = w.toNat % 16 → len = w.toNat / 256 % 64 → kb = w.toNat / 65536 % 512 →
        ∀ (l : BitVec 6) (b : BitVec 9), l.toNat = len → b.toNat = kb →
        (op = 0x0 → decode w = .ok (.nop l b))
        ∧ (op = 0x1 → decode w = if len ≤ 32 then .ok (.init l b) else .error .lenOutOfRange)
        ∧ (op = 0x2 → decode w = .ok (.ecbEnc l b))
        ∧ (op = 0x3 → decode w = .ok (.ecbDec l b))
        ∧ (op = 0x4 → decode w = .ok (.encStart l b))
        ∧ (op = 0x5 → decode w = .ok (.encBlock l b))
        ∧ (op = 0x6 → decode w = if len ≤ 15 then .ok (.encFinal l b) else .error .lenOutOfRange)
        ∧ (op = 0x7 → decode w = if len ≤ 16 then .ok (.decStart l b) else .error .lenOutOfRange)
        ∧ (op = 0x8 → decode w = .ok (.decBlock l b))
        ∧ (op = 0x9 → decode w = if len ≤ 16 then .ok (.decFinal l b) else .error .lenOutOfRange)
        ∧ (op = 0xF → decode w = .ok (.reset l b))
        ∧ (0xA ≤ op ∧ op ≤ 0xE → decode w = .error .reservedOp))

/-- R87, R88, R82: a word that is no command changes `ERR` and `OUT_COUNT` and nothing else, whatever its `OP`. -/
def Obligations.IllegalWordChangesOnlyTheStatus : Prop :=
  ∀ (w : Word) (e : DecodeError) (s : State), s.busy = false → decode w = .error e →
    access (.write 0#7 w) s = .next { s with err := .illegalCommand, outCount := 0 }

/-- R245: performing a command is total: for every word and every state the outcome is a next state. -/
def Obligations.EveryCommandCompletes : Prop :=
  ∀ (w : Word) (s : State), ∃ t, perform w s = .next t

/-! ### GF(2^8) and the S-Boxes -/

/-- R100: doubling, in numbers, with the rule's corner cases. -/
def Obligations.XtimeDoubles : Prop :=
  (∀ b : Byte, (b.toNat < 128 → (xtime b).toNat = 2 * b.toNat)
    ∧ (128 ≤ b.toNat → (xtime b).toNat = (2 * b.toNat - 256) ^^^ 0x1B))
  ∧ xtime 0x00#8 = 0x00#8 ∧ xtime 0x80#8 = 0x1B#8 ∧ xtime 0xFF#8 = 0xE5#8 ∧ xtime 0x7F#8 = 0xFE#8
  ∧ xtime 0x57#8 = 0xAE#8 ∧ xtime 0xAE#8 = 0x47#8

/-- R101: multiplication by the constants of the two column matrices, composed from doublings. -/
def Obligations.GmulByTheMatrixConstants : Prop :=
  (∀ a : Byte, gmul a 0x01#8 = a ∧ gmul a 0x02#8 = xtime a ∧ gmul a 0x03#8 = xtime a ^^^ a
    ∧ gmul a 0x09#8 = xtime (xtime (xtime a)) ^^^ a
    ∧ gmul a 0x0B#8 = xtime (xtime (xtime a)) ^^^ xtime a ^^^ a
    ∧ gmul a 0x0D#8 = xtime (xtime (xtime a)) ^^^ xtime (xtime a) ^^^ a
    ∧ gmul a 0x0E#8 = xtime (xtime (xtime a)) ^^^ xtime (xtime a) ^^^ xtime a
    ∧ gmul 0x00#8 a = 0x00#8 ∧ gmul a 0x00#8 = 0x00#8)
  ∧ gmul 0x57#8 0x13#8 = 0xFE#8

/-- R101 (corner cases; 93 G3): multiplication is commutative and associative. -/
def Obligations.GmulCommutesAndAssociates : Prop :=
  (∀ a b : Byte, gmul a b = gmul b a) ∧ ∀ a b c : Byte, gmul (gmul a b) c = gmul a (gmul b c)

/-- R106: the two ROMs are mutual inverses. -/
def Obligations.SboxesAreMutualInverses : Prop :=
  (∀ x : Byte, invSbox (sbox x) = x) ∧ ∀ x : Byte, sbox (invSbox x) = x

/-- R104: every entry of the S-Box ROM is the affine image of the field inverse, and no entry is a fixed point. -/
def Obligations.SboxIsAffineInverse : Prop :=
  ∀ x : Byte, (∃ b : Byte, (x = 0x00#8 → b = 0x00#8) ∧ (x ≠ 0x00#8 → gmul x b = 0x01#8)
      ∧ sbox x = b ^^^ b.rotateLeft 1 ^^^ b.rotateLeft 2 ^^^ b.rotateLeft 3 ^^^ b.rotateLeft 4 ^^^ 0x63#8)
    ∧ sbox x ≠ x

/-! ### The block transform -/

/-- R163, R164: the row shifts as byte permutations. -/
def Obligations.RowShiftsArePermutations : Prop :=
  ∀ s : Block,
    shiftRows s = #v[s[0], s[5], s[10], s[15], s[4], s[9], s[14], s[3], s[8], s[13], s[2], s[7], s[12], s[1], s[6], s[11]]
    ∧ invShiftRows s
      = #v[s[0], s[13], s[10], s[7], s[4], s[1], s[14], s[11], s[8], s[5], s[2], s[15], s[12], s[9], s[6], s[3]]

/-- R162, R164, R166, R167: every inverse primitive undoes its forward primitive, and the other way round. -/
def Obligations.PrimitivesAreInvertible : Prop :=
  ∀ (s : Block) (ks : Vector Word 60) (r : Nat),
    invSubBytes (subBytes s) = s ∧ subBytes (invSubBytes s) = s
    ∧ invShiftRows (shiftRows s) = s ∧ shiftRows (invShiftRows s) = s
    ∧ invMixColumns (mixColumns s) = s ∧ mixColumns (invMixColumns s) = s
    ∧ addRoundKey ks r (addRoundKey ks r s) = s

/-- R161, R162: the byte substitutions put every byte through the S-Box ROM and the inverse S-Box ROM. R160: the
primitives keep to their lanes: bytes, rows or columns. -/
def Obligations.PrimitivesKeepToTheirLanes : Prop :=
  (∀ (s : Block) (r c : Fin 4),
    cell (subBytes s) r c = sbox (cell s r c) ∧ cell (invSubBytes s) r c = invSbox (cell s r c))
  ∧ (∀ (s t : Block) (r c : Fin 4), cell s r c = cell t r c →
    cell (subBytes s) r c = cell (subBytes t) r c ∧ cell (invSubBytes s) r c = cell (invSubBytes t) r c
    ∧ ∀ ks n, cell (addRoundKey ks n s) r c = cell (addRoundKey ks n t) r c)
  ∧ (∀ (s t : Block) (r : Fin 4), (∀ c, cell s r c = cell t r c) →
    ∀ c, cell (shiftRows s) r c = cell (shiftRows t) r c ∧ cell (invShiftRows s) r c = cell (invShiftRows t) r c)
  ∧ (∀ (s t : Block) (c : Fin 4), (∀ r, cell s r c = cell t r c) →
    ∀ r, cell (mixColumns s) r c = cell (mixColumns t) r c ∧ cell (invMixColumns s) r c = cell (invMixColumns t) r c)

/-- R165, R166: every cell of `MixColumns(S)` and of `InvMixColumns(S)` is the rule's sum of products over its column; a
column of four equal bytes is unchanged by `MixColumns`; and the example columns of R165. -/
def Obligations.MixColumnExamples : Prop :=
  (∀ (s : Block) (c : Fin 4) (a0 a1 a2 a3 : Byte),
    a0 = cell s 0 c → a1 = cell s 1 c → a2 = cell s 2 c → a3 = cell s 3 c →
    cell (mixColumns s) 0 c = gmul 0x02#8 a0 ^^^ gmul 0x03#8 a1 ^^^ a2 ^^^ a3
    ∧ cell (mixColumns s) 1 c = a0 ^^^ gmul 0x02#8 a1 ^^^ gmul 0x03#8 a2 ^^^ a3
    ∧ cell (mixColumns s) 2 c = a0 ^^^ a1 ^^^ gmul 0x02#8 a2 ^^^ gmul 0x03#8 a3
    ∧ cell (mixColumns s) 3 c = gmul 0x03#8 a0 ^^^ a1 ^^^ a2 ^^^ gmul 0x02#8 a3
    ∧ cell (invMixColumns s) 0 c = gmul 0x0E#8 a0 ^^^ gmul 0x0B#8 a1 ^^^ gmul 0x0D#8 a2 ^^^ gmul 0x09#8 a3
    ∧ cell (invMixColumns s) 1 c = gmul 0x09#8 a0 ^^^ gmul 0x0E#8 a1 ^^^ gmul 0x0B#8 a2 ^^^ gmul 0x0D#8 a3
    ∧ cell (invMixColumns s) 2 c = gmul 0x0D#8 a0 ^^^ gmul 0x09#8 a1 ^^^ gmul 0x0E#8 a2 ^^^ gmul 0x0B#8 a3
    ∧ cell (invMixColumns s) 3 c = gmul 0x0B#8 a0 ^^^ gmul 0x0D#8 a1 ^^^ gmul 0x09#8 a2 ^^^ gmul 0x0E#8 a3)
  ∧ (∀ (b : Byte) (r : Fin 4), mixColumn b b b b r = b)
  ∧ (List.ofFn (mixColumn 0xDB#8 0x13#8 0x53#8 0x45#8) = [0x8E#8, 0x4D#8, 0xA1#8, 0xBC#8])
  ∧ (List.ofFn (mixColumn 0xF2#8 0x0A#8 0x22#8 0x5C#8) = [0x9F#8, 0xDC#8, 0x58#8, 0x9D#8])
  ∧ (List.ofFn (mixColumn 0xD4#8 0xD4#8 0xD4#8 0xD5#8) = [0xD5#8, 0xD5#8, 0xD7#8, 0xD6#8])
  ∧ (List.ofFn (mixColumn 0x2D#8 0x26#8 0x31#8 0x4C#8) = [0x4D#8, 0x7E#8, 0xBD#8, 0xF8#8])

/-- R171, R172: the two engines as the rules' loops over `ROUND`, ascending and descending, with the first and last steps
as the rules have them, and the round key of R138 in `AddRoundKey` (R167). -/
def Obligations.EnginesRunTheRounds : Prop :=
  ∀ (ks : Vector Word 60) (nr : Nat) (b : Block),
    cipher ks nr b
      = addRoundKey ks nr (shiftRows (subBytes ((List.range (nr - 1)).foldl
          (fun s i => addRoundKey ks (i + 1) (mixColumns (shiftRows (subBytes s)))) (addRoundKey ks 0 b))))
    ∧ invCipher ks nr b
      = addRoundKey ks 0 (invSubBytes (invShiftRows ((List.range (nr - 1)).foldr
          (fun i s => invMixColumns (addRoundKey ks (i + 1) (invSubBytes (invShiftRows s)))) (addRoundKey ks nr b))))
    ∧ ∀ (r : Fin 15) (c k : Fin 4),
      cell (addRoundKey ks r.val b) k c = cell b k c ^^^ byteOf (ks[4 * r.val + c.val]'(by omega)) k

/-- R175: the two engines undo each other, for every key schedule, round count and block. -/
def Obligations.CiphersAreMutualInverses : Prop :=
  ∀ (ks : Vector Word 60) (nr : Nat) (b : Block),
    invCipher ks nr (cipher ks nr b) = b ∧ cipher ks nr (invCipher ks nr b) = b

/-- R171, R172 (examples) and V1: the fixed vector of the source, both ways. One concrete configuration. -/
def Obligations.FixedVectorHolds : Prop :=
  ∀ key plain code : Block,
    key = Vector.ofFn (fun i => BitVec.ofNat 8 i.val) → plain = Vector.ofFn (fun i => BitVec.ofNat 8 (0x11 * i.val)) →
    code = #v[0x69#8, 0xC4#8, 0xE0#8, 0xD8#8, 0x6A#8, 0x7B#8, 0x04#8, 0x30#8, 0xD8#8, 0xCD#8, 0xB7#8, 0x80#8, 0x70#8, 0xB4#8,
      0xC5#8, 0x5A#8] →
    cipher (expandKey 4 key.toList) 10 plain = code ∧ invCipher (expandKey 4 key.toList) 10 code = plain

/-! ### The key schedule -/

/-- R131, R132: rotation and substitution of a big-endian word (R9, R62), in bytes and in numbers, with the rules' cases;
and byte `4j + k` of a block is byte `k` of word `j` of its register group, both ways (R62, R86). -/
def Obligations.WordPrimitives : Prop :=
  (∀ a b c d : Byte,
    (word a b c d).toNat = a.toNat * 2 ^ 24 + b.toNat * 2 ^ 16 + c.toNat * 2 ^ 8 + d.toNat
    ∧ rotWord (word a b c d) = word b c d a
    ∧ subWord (word a b c d) = word (sbox a) (sbox b) (sbox c) (sbox d))
  ∧ (∀ w : Word, (rotWord w).toNat = w.toNat * 256 % 2 ^ 32 + w.toNat / 2 ^ 24
    ∧ word (byteOf w 0) (byteOf w 1) (byteOf w 2) (byteOf w 3) = w)
  ∧ (∀ (x : Vector Word 4) (j k : Fin 4), (wordsBlock x)[4 * j.val + k.val]'(by omega) = byteOf x[j] k)
  ∧ (∀ (b : Block) (j k : Fin 4), byteOf (blockWords b)[j] k = b[4 * j.val + k.val]'(by omega))
  ∧ rotWord 0#32 = 0#32 ∧ rotWord 0x09CF4F3C#32 = 0xCF4F3C09#32
  ∧ subWord 0#32 = 0x63636363#32 ∧ subWord 0xCF4F3C09#32 = 0x8A84EB01#32

/-- R134: the recurrence of the expanded words, with the round constants of R103, for every key of every variant. R136: the
words of the key-schedule RAM above the schedule are 0. -/
def Obligations.ExpansionFollowsTheRecurrence : Prop :=
  ((List.range 11).map (fun j => roundConst (j + 1))
    = [0x01#8, 0x02#8, 0x04#8, 0x08#8, 0x10#8, 0x20#8, 0x40#8, 0x80#8, 0x1B#8, 0x36#8, 0x6C#8])
  ∧ ∀ (v : Variant) (key : List Byte) (nk : Nat), nk = v.keyWords.val → key.length = 4 * nk →
    ∀ w : Nat → Word, (∀ i, w i = ksWord (expandKey nk key) i) →
    (∀ i, (h : i < nk) → (hl : 4 * i + 3 < key.length) →
      w i = word (key[4 * i]'(by omega)) (key[4 * i + 1]'(by omega)) (key[4 * i + 2]'(by omega)) (key[4 * i + 3]'hl))
    ∧ (∀ i, nk ≤ i → i < 4 * (nk + 6 + 1) →
        (i % nk = 0 → w i = w (i - nk) ^^^ (subWord (rotWord (w (i - 1))) ^^^ rconWord (roundConst (i / nk))))
        ∧ (6 < nk → i % nk = 4 → w i = w (i - nk) ^^^ subWord (w (i - 1)))
        ∧ (i % nk ≠ 0 → ¬(6 < nk ∧ i % nk = 4) → w i = w (i - nk) ^^^ w (i - 1)))
    ∧ (∀ i, 4 * (nk + 6 + 1) ≤ i → i < 60 → w i = 0#32)

/-- R136: `INIT`, all its outcomes, for every `LEN` and `KEYBITS`. Key byte `4j + k` is byte `k` of `KEYBUF[j]`, big-endian
(R24, R62, R63). -/
def Obligations.InitCommand : Prop :=
  ∀ (s : State) (len : BitVec 6) (kb : BitVec 9),
    (32 < len.toNat →
      exec (.init len kb) s = .next { s with err := .illegalCommand, outCount := 0 })
    ∧ (len.toNat ≤ 32 → kb ≠ 128#9 → kb ≠ 192#9 → kb ≠ 256#9 →
        exec (.init len kb) s = .next { s with
          ks := Vector.replicate 60 0#32, ksValid := false, nk := 0, nr := 0, stream := .idle,
          err := .unsupportedVariant, outCount := 0 })
    ∧ (∀ v : Variant, kb.toNat = 32 * v.keyWords.val → len.toNat < 4 * v.keyWords.val →
        exec (.init len kb) s = .next { s with
          ks := Vector.replicate 60 0#32, ksValid := false, nk := 0, nr := 0, stream := .idle,
          err := .invalidKeyLength, outCount := 0 })
    ∧ (∀ v : Variant, kb.toNat = 32 * v.keyWords.val → 4 * v.keyWords.val ≤ len.toNat → len.toNat ≤ 32 →
        ∃ k tm rc rd n, exec (.init len kb) s = .next { s with
          ks := expandKey v.keyWords.val
            (((List.finRange 32).map fun i => byteOf (s.keybuf[i.val / 4]'(by omega)) ⟨i.val % 4, by omega⟩).take
              (4 * v.keyWords.val))
          nk := v.keyWords, nr := v.rounds, ksValid := true, stream := .idle, err := .none, outCount := 0
          ksi := k, temp := tm, rcon := rc, round := rd, freeIdx := n })

/-- R36, R3: the variants: `NK` is 4, 6 or 8, `NR = NK + 6`, and `KS_WORDS = 4·(NR+1)` is 44, 52 or 60 after `INIT`. -/
def Obligations.InitSelectsTheVariant : Prop :=
  ∀ (s t : State) (len : BitVec 6) (kb : BitVec 9), exec (.init len kb) s = .next t → t.err = .none →
    t.ksValid = true ∧ 32 * t.nk.val = kb.toNat ∧ t.nr.val = t.nk.val + 6
    ∧ ((t.nk.val = 4 ∧ ksWords t = 44) ∨ (t.nk.val = 6 ∧ ksWords t = 52) ∨ (t.nk.val = 8 ∧ ksWords t = 60))

/-- R136, U13: the schedule depends on the first `Nk` words of `KEYBUF` alone, not on `LEN` or the words above. -/
def Obligations.InitUsesOnlyItsKeyWords : Prop :=
  ∀ (s s' t t' : State) (len len' : BitVec 6) (kb : BitVec 9),
    exec (.init len kb) s = .next t → exec (.init len' kb) s' = .next t' → t.err = .none → t'.err = .none →
    (∀ j : Fin 8, 32 * j.val < kb.toNat → s.keybuf[j] = s'.keybuf[j]) → t.ks = t'.ks

/-- R137: `KS`, `KS_VALID`, `NK` and `NR` change in a step only when it makes an `INIT`, a `RESET` or a hardware reset. -/
def Obligations.ScheduleIsReadOnly : Prop :=
  ∀ s t : State, step s = .next t →
    (t.ks = s.ks ∧ t.ksValid = s.ksValid ∧ t.nk = s.nk ∧ t.nr = s.nr)
    ∨ (∃ rest, s.pending = .hardwareReset :: rest)
    ∨ (∃ w rest l k, s.pending = .write 0#7 w :: rest ∧ (decode w = .ok (.init l k) ∨ decode w = .ok (.reset l k)))

/-! ### The ECB commands -/

/-- R173: `ECB_ENC`, in every state. -/
def Obligations.EcbEncCommand : Prop :=
  ∀ (s : State) (len : BitVec 6) (kb : BitVec 9),
    (s.ksValid = false → exec (.ecbEnc len kb) s = .next { s with err := .noKey, outCount := 0 })
    ∧ (s.ksValid = true → ∃ k tm rc rd n, exec (.ecbEnc len kb) s = .next { s with
        state := cipher s.ks s.nr.val (wordsBlock s.din)
        dout := blockWords (cipher s.ks s.nr.val (wordsBlock s.din))
        outCount := 16, err := .none, ksi := k, temp := tm, rcon := rc, round := rd, freeIdx := n })

/-- R174: `ECB_DEC`, in every state. -/
def Obligations.EcbDecCommand : Prop :=
  ∀ (s : State) (len : BitVec 6) (kb : BitVec 9),
    (s.ksValid = false → exec (.ecbDec len kb) s = .next { s with err := .noKey, outCount := 0 })
    ∧ (s.ksValid = true → ∃ k tm rc rd n, exec (.ecbDec len kb) s = .next { s with
        state := invCipher s.ks s.nr.val (wordsBlock s.din)
        dout := blockWords (invCipher s.ks s.nr.val (wordsBlock s.din))
        outCount := 16, err := .none, ksi := k, temp := tm, rcon := rc, round := rd, freeIdx := n })

/-! ### The CBC commands -/

/-- R202: `ENC_START`, in every state. -/
def Obligations.EncStartCommand : Prop :=
  ∀ (s : State) (len : BitVec 6) (kb : BitVec 9),
    (s.ksValid = false → exec (.encStart len kb) s = .next { s with err := .noKey, outCount := 0 })
    ∧ (s.ksValid = true → ∃ k tm rc rd n, exec (.encStart len kb) s = .next { s with
        cv := wordsBlock s.iv, dout := s.iv, outCount := 16, stream := .encRun, err := .none
        ksi := k, temp := tm, rcon := rc, round := rd, freeIdx := n })

/-- R203: `ENC_BLOCK`, in every state. -/
def Obligations.EncBlockCommand : Prop :=
  ∀ (s : State) (len : BitVec 6) (kb : BitVec 9) (c : Block),
    c = cipher s.ks s.nr.val (xorBlock (wordsBlock s.din) s.cv) →
    (s.ksValid = false → exec (.encBlock len kb) s = .next { s with err := .noKey, outCount := 0 })
    ∧ (s.ksValid = true → s.stream ≠ .encRun →
        exec (.encBlock len kb) s = .next { s with err := .badSequence, outCount := 0 })
    ∧ (s.ksValid = true → s.stream = .encRun → ∃ k tm rc rd n, exec (.encBlock len kb) s = .next { s with
        state := c, cv := c, dout := blockWords c, outCount := 16, err := .none
        ksi := k, temp := tm, rcon := rc, round := rd, freeIdx := n })

/-- R204: `ENC_FINAL`, for every `LEN` in every state. -/
def Obligations.EncFinalCommand : Prop :=
  ∀ (s : State) (len : BitVec 6) (kb : BitVec 9) (c : Block),
    c = cipher s.ks s.nr.val (xorBlock (pad (wordsBlock s.din) len.toNat) s.cv) →
    (15 < len.toNat → exec (.encFinal len kb) s = .next { s with err := .illegalCommand, outCount := 0 })
    ∧ (len.toNat ≤ 15 → s.ksValid = false →
        exec (.encFinal len kb) s = .next { s with err := .noKey, outCount := 0 })
    ∧ (len.toNat ≤ 15 → s.ksValid = true → s.stream ≠ .encRun →
        exec (.encFinal len kb) s = .next { s with err := .badSequence, outCount := 0 })
    ∧ (len.toNat ≤ 15 → s.ksValid = true → s.stream = .encRun →
        ∃ k tm rc rd n, exec (.encFinal len kb) s = .next { s with
          state := c, cv := c, dout := blockWords c, outCount := 16, stream := .done, err := .none
          ksi := k, temp := tm, rcon := rc, round := rd, freeIdx := n })

/-- R206: `DEC_START`, for every `LEN` in every state. -/
def Obligations.DecStartCommand : Prop :=
  ∀ (s : State) (len : BitVec 6) (kb : BitVec 9),
    (16 < len.toNat → exec (.decStart len kb) s = .next { s with err := .illegalCommand, outCount := 0 })
    ∧ (len.toNat ≤ 16 → s.ksValid = false →
        exec (.decStart len kb) s = .next { s with err := .noKey, outCount := 0 })
    ∧ (len.toNat < 16 → s.ksValid = true →
        exec (.decStart len kb) s = .next { s with stream := .failed, err := .streamTruncated, outCount := 0 })
    ∧ (len.toNat = 16 → s.ksValid = true → ∃ k tm rc rd n, exec (.decStart len kb) s = .next { s with
        cv := wordsBlock s.din, outCount := 0, stream := .decRun, err := .none
        ksi := k, temp := tm, rcon := rc, round := rd, freeIdx := n })

/-- R208: `DEC_BLOCK`, in every state. -/
def Obligations.DecBlockCommand : Prop :=
  ∀ (s : State) (len : BitVec 6) (kb : BitVec 9) (o : Block),
    o = invCipher s.ks s.nr.val (wordsBlock s.din) →
    (s.ksValid = false → exec (.decBlock len kb) s = .next { s with err := .noKey, outCount := 0 })
    ∧ (s.ksValid = true → s.stream ≠ .decRun →
        exec (.decBlock len kb) s = .next { s with err := .badSequence, outCount := 0 })
    ∧ (s.ksValid = true → s.stream = .decRun → ∃ k tm rc rd n, exec (.decBlock len kb) s = .next { s with
        nextIv := wordsBlock s.din, state := o, cv := wordsBlock s.din, dout := blockWords (xorBlock o s.cv)
        outCount := 16, err := .none, ksi := k, temp := tm, rcon := rc, round := rd, freeIdx := n })

/-- R207: `DEC_FINAL`, for every `LEN` in every state. That `DOUT` is written with valid padding of length 16 too, where
`OUT_COUNT` is 0, is R207's text and the model's choice against R27 and R299 (log entry 16); that `NEXT_IV` and `STATE` are
written with invalid padding is R207's text and the model's choice against R263 (log entry 17). -/
def Obligations.DecFinalCommand : Prop :=
  ∀ (s : State) (len : BitVec 6) (kb : BitVec 9) (o p : Block),
    o = invCipher s.ks s.nr.val (wordsBlock s.din) → p = xorBlock o s.cv →
    (16 < len.toNat → exec (.decFinal len kb) s = .next { s with err := .illegalCommand, outCount := 0 })
    ∧ (len.toNat ≤ 16 → s.ksValid = false →
        exec (.decFinal len kb) s = .next { s with err := .noKey, outCount := 0 })
    ∧ (len.toNat ≤ 16 → s.ksValid = true → s.stream ≠ .decRun →
        exec (.decFinal len kb) s = .next { s with err := .badSequence, outCount := 0 })
    ∧ (len.toNat < 16 → s.ksValid = true → s.stream = .decRun →
        exec (.decFinal len kb) s = .next { s with stream := .failed, err := .streamTruncated, outCount := 0 })
    ∧ (len.toNat = 16 → s.ksValid = true → s.stream = .decRun → padValid p = false →
        ∃ k tm rc rd n, exec (.decFinal len kb) s = .next { s with
          nextIv := wordsBlock s.din, state := o, cv := wordsBlock s.din, stream := .failed, err := .paddingInvalid
          outCount := 0, ksi := k, temp := tm, rcon := rc, round := rd, freeIdx := n })
    ∧ (len.toNat = 16 → s.ksValid = true → s.stream = .decRun → padValid p = true →
        ∀ m : Fin 17, m.val = 16 - p[15].toNat →
        ∃ k tm rc rd n, exec (.decFinal len kb) s = .next { s with
          nextIv := wordsBlock s.din, state := o, cv := wordsBlock s.din, dout := blockWords p, outCount := m
          stream := .done, err := .none, ksi := k, temp := tm, rcon := rc, round := rd, freeIdx := n })

/-- R201: the two definitions. `Pad` keeps the first `n` bytes and fills the rest with `16 - n`; `PadValid` looks at the
last `p` bytes, `p` being the last one. -/
def Obligations.PadAndPadValid : Prop :=
  (∀ (d : Block) (n : Nat), n ≤ 15 → ∀ i : Fin 16, (pad d n)[i] = if i.val < n then d[i] else BitVec.ofNat 8 (16 - n))
  ∧ ∀ b : Block, padValid b = true ↔
    1 ≤ b[15].toNat ∧ b[15].toNat ≤ 16 ∧ ∀ k : Fin 16, 16 - b[15].toNat ≤ k.val → b[k] = b[15]

/-- R201: `PadValid` accepts exactly the blocks that `Pad` makes, with `p = 16 - n`. -/
def Obligations.PadValidIsExact : Prop :=
  (∀ b : Block, padValid b = true ↔ ∃ (d : Block) (n : Nat), n ≤ 15 ∧ b = pad d n)
  ∧ ∀ (d : Block) (n : Nat), n ≤ 15 → (pad d n)[15].toNat = 16 - n

/-- R207 (corner cases), R211 and 90_conflicts.md C4: a last byte of 1 is a valid padding whatever stands before it, so
the tampered block `... 03 03 01` is accepted; a last byte of 0 or above 16 never is. -/
def Obligations.PaddingCornerCases : Prop :=
  (∀ b : Block, b[15] = 0x01#8 → padValid b = true)
  ∧ (∀ b : Block, b[15] = 0x00#8 ∨ 17 ≤ b[15].toNat → padValid b = false)
  ∧ padValid #v[0x00#8, 0x01#8, 0x02#8, 0x03#8, 0x04#8, 0x05#8, 0x06#8, 0x07#8, 0x08#8, 0x09#8, 0x0A#8, 0x0B#8, 0x0C#8, 0x03#8,
      0x03#8, 0x01#8] = true

/-- R200: the stream state machine: every row of the table, the stream state a command needs to succeed, and
`BAD_SEQUENCE` (which changes nothing else and emits nothing) when the stream is in another state, `FAILED` and `DONE`
among them. -/
def Obligations.StreamStateMachine : Prop :=
  (∀ (i : Instr) (s t : State), exec i s = .next t →
    t.stream = SpecTable.streamAfter i s.stream t.err
    ∧ (∀ st, SpecTable.requiredStream i = some st → t.err = .none → s.stream = st))
  ∧ ∀ (i : Instr) (s : State) (st : StreamState), SpecTable.requiredStream i = some st → s.stream ≠ st →
    i.wellFormed = true → s.ksValid = true → exec i s = .next { s with err := .badSequence, outCount := 0 }

/-- R211: flipping bits of `CV` (the previous ciphertext block) flips exactly those bits of the block `DEC_BLOCK` emits. -/
def Obligations.ChainingErrorsFlipTheSameBits : Prop :=
  ∀ (s t t' : State) (d : Block) (len len' : BitVec 6) (kb kb' : BitVec 9),
    s.ksValid = true → s.stream = .decRun → exec (.decBlock len kb) s = .next t →
    exec (.decBlock len' kb') { s with cv := xorBlock s.cv d } = .next t' →
    wordsBlock t'.dout = xorBlock (wordsBlock t.dout) d ∧ t'.cv = t.cv

/-- R86, U14: the bytes of `DIN` at positions `LEN` and above do not matter to `ENC_FINAL`. That the two runs agree on the
sequencing registers too, which R39 and U1 leave unspecified, is the model's choice (log entry 1: a free value depends on
the counter alone). -/
def Obligations.EncFinalIgnoresBytesBeyondLen : Prop :=
  ∀ (s t t' : State) (d : Vector Word 4) (len : BitVec 6) (kb : BitVec 9),
    (∀ i : Fin 16, i.val < len.toNat → (wordsBlock d)[i] = (wordsBlock s.din)[i]) →
    exec (.encFinal len kb) s = .next t → exec (.encFinal len kb) { s with din := d } = .next t' →
    t' = { t with din := d }

/-! ### Errors -/

/-- R262, with the causes of R260: a command reports the first error that applies, and `NONE` when none does; a word that
is no command reports `ILLEGAL_COMMAND` before anything else is looked at. -/
def Obligations.ErrorPriority : Prop :=
  (∀ (i : Instr) (s t : State), exec i s = .next t →
    (∀ l k, i ≠ .nop l k) → t.err = (SpecTable.errors i s).head?.getD .none)
  ∧ ∀ (w : Word) (e : DecodeError) (s : State), decode w = .error e →
    perform w s = .next { s with err := .illegalCommand, outCount := 0 }

/-- R27, R28 and R299: `OUT_COUNT` after every command, and `DOUT` after every command that emits nothing: it is as it
was, but for `RESET` (R242) and for `DEC_FINAL` with valid padding, which writes `DOUT` whatever `OUT_COUNT` becomes.
That it does so for padding of length 16 is R207's text and the model's choice against R27 and R299 (log entry 16). -/
def Obligations.OutputRule : Prop :=
  ∀ (i : Instr) (s t : State), exec i s = .next t →
    match i with
    | .nop _ _ => t.outCount = s.outCount ∧ t.dout = s.dout
    | .ecbEnc _ _ | .ecbDec _ _ | .encStart _ _ | .encBlock _ _ | .encFinal _ _ | .decBlock _ _ =>
      (t.outCount = if t.err = .none then 16 else 0) ∧ (t.outCount = 0 → t.dout = s.dout)
    | .decFinal _ _ =>
      (t.outCount.val = if t.err = .none then 16 - (SpecTable.decrypted s)[15].toNat else 0)
      ∧ t.dout = if t.err = .none then blockWords (SpecTable.decrypted s) else s.dout
    | .init _ _ | .decStart _ _ => t.outCount = 0 ∧ t.dout = s.dout
    | .reset _ _ => t.outCount = 0 ∧ t.dout = Vector.replicate 4 0#32

/-- R263: a failed command leaves the state as it was but for `ERR`, `OUT_COUNT` and what its error code lists; and what
R207 (with R38) has written besides when `DEC_FINAL` ends with `PADDING_INVALID`: `NEXT_IV` and `STATE`, the model's choice
against R263's list (log entry 17), with the sequencing registers unspecified (R39; log entry 1). -/
def Obligations.ErrorsArePrecise : Prop :=
  ∀ (i : Instr) (s t : State), exec i s = .next t → (∀ l k, i ≠ .nop l k) →
    (t.err = .illegalCommand ∨ t.err = .noKey ∨ t.err = .badSequence →
      t = { s with err := t.err, outCount := 0 })
    ∧ (t.err = .streamTruncated → t = { s with err := t.err, outCount := 0, stream := .failed })
    ∧ (t.err = .unsupportedVariant ∨ t.err = .invalidKeyLength →
      t = { s with
        err := t.err, outCount := 0, stream := .idle, ks := Vector.replicate 60 0#32, ksValid := false, nk := 0, nr := 0 })
    ∧ (t.err = .paddingInvalid → ∃ k tm rc rd n,
      t = { s with
        err := t.err, outCount := 0, stream := .failed, nextIv := wordsBlock s.din, cv := wordsBlock s.din
        state := invCipher s.ks s.nr.val (wordsBlock s.din)
        ksi := k, temp := tm, rcon := rc, round := rd, freeIdx := n })

/-! ### Frames -/

/-- R300: no command but `RESET` changes `KEYBUF`, `IV` or `DIN`; nor does it touch `BUSY` or the host's side. -/
def Obligations.InputRegistersAreNotConsumed : Prop :=
  ∀ (i : Instr) (s t : State), exec i s = .next t → (∀ l k, i ≠ .reset l k) →
    t.keybuf = s.keybuf ∧ t.iv = s.iv ∧ t.din = s.din ∧ t.busy = s.busy ∧ t.pending = s.pending
    ∧ t.replies = s.replies

/-- R302, R24: only `INIT` reads `KEYBUF`: with another key in the buffer every other command does the same. That
the two runs agree on the sequencing registers too, which R39 and U1 leave unspecified, is the model's choice (log entry 1:
a free value depends on the counter alone). -/
def Obligations.KeyBufferIsReadOnlyByInit : Prop :=
  ∀ (i : Instr) (s t : State) (kb : Vector Word 8), exec i s = .next t → (∀ l k, i ≠ .init l k) →
    ((∀ l k, i ≠ .reset l k) → exec i { s with keybuf := kb } = .next { t with keybuf := kb })
    ∧ (∀ l k, i = .reset l k → exec i { s with keybuf := kb } = .next t)
    ∧ ∀ x, hostRead x { s with keybuf := kb } = hostRead x s

/-! ### Control commands and reset -/

/-- R241: `NOP` changes nothing, with any operand fields, in every state. -/
def Obligations.NopCommand : Prop :=
  ∀ (s : State) (len : BitVec 6) (kb : BitVec 9), exec (.nop len kb) s = .next s

/-- R242, R290: `RESET` puts every element of R20 to its reset value, the sequencing registers unspecified, and hardware
reset does the same in every state, `BUSY` or not. The host's side stays. That the two resets agree on the sequencing
registers too is the model's choice (log entry 1), and hardware reset as an access is its form (log entry 7). -/
def Obligations.ResetCommand : Prop :=
  ∀ (s : State) (len : BitVec 6) (kb : BitVec 9), ∃ k tm rc rd n,
    exec (.reset len kb) s = .next {
      keybuf := Vector.replicate 8 0#32, iv := Vector.replicate 4 0#32, din := Vector.replicate 4 0#32
      dout := Vector.replicate 4 0#32, outCount := 0, cv := Vector.replicate 16 0#8, nextIv := Vector.replicate 16 0#8
      state := Vector.replicate 16 0#8, ks := Vector.replicate 60 0#32, ksValid := false, nk := 0, nr := 0
      stream := .idle, err := .none, busy := false
      ksi := k, temp := tm, rcon := rc, round := rd
      pending := s.pending, replies := s.replies, freeIdx := n }
    ∧ access .hardwareReset s = exec (.reset len kb) s

/-- R290: the values after reset, and `STATUS` reads 0. -/
def Obligations.ResetValues : Prop :=
  ∀ s : State, s = State.reset →
    s.keybuf = Vector.replicate 8 0#32 ∧ s.iv = Vector.replicate 4 0#32 ∧ s.din = Vector.replicate 4 0#32
    ∧ s.dout = Vector.replicate 4 0#32 ∧ s.cv = Vector.replicate 16 0#8 ∧ s.nextIv = Vector.replicate 16 0#8
    ∧ s.state = Vector.replicate 16 0#8 ∧ s.ks = Vector.replicate 60 0#32 ∧ s.ksValid = false ∧ s.nk = 0 ∧ s.nr = 0
    ∧ s.stream = .idle ∧ s.err = .none ∧ s.outCount = 0 ∧ s.busy = false ∧ status s = 0x00000000#32

/-! ### The host port -/

/-- R31: every field of `STATUS`, every other bit reads 0, and a write is ignored; with the codes of R33 and R260. -/
def Obligations.StatusLayout : Prop :=
  ([StreamState.idle, .encRun, .decRun, .done, .failed].map fun x => x.code.toNat) = [0, 1, 2, 3, 4]
  ∧ ([ErrCode.none, .invalidKeyLength, .unsupportedVariant, .streamTruncated, .paddingInvalid, .noKey, .badSequence,
      .illegalCommand].map fun x => x.code.toNat) = [0, 1, 2, 3, 4, 5, 6, 7]
  ∧ ∀ s : State,
    (status s).getLsbD 0 = s.busy ∧ (status s).getLsbD 1 = s.ksValid
    ∧ (status s).extractLsb' 2 3 = s.stream.code ∧ (status s).extractLsb' 5 3 = 0#3
    ∧ (status s).extractLsb' 8 4 = s.err.code ∧ (status s).extractLsb' 12 4 = 0#4
    ∧ ((status s).extractLsb' 16 8).toNat = (if s.ksValid then 4 * (s.nr.val + 1) else 0)
    ∧ ((status s).extractLsb' 24 5).toNat = s.outCount.val ∧ (status s).extractLsb' 29 3 = 0#3
    ∧ ∀ v, hostWrite 0x01#7 v s = .next s

/-- R243, R37: what a read of every word index returns. -/
def Obligations.HostReadMap : Prop :=
  ∀ (s : State) (i : Index) (n : Nat), n = i.toNat →
    (n = 0x01 → hostRead i s = status s)
    ∧ (∀ j : Fin 4, n = 0x0C + j.val → hostRead i s = s.iv[j])
    ∧ (∀ j : Fin 4, n = 0x10 + j.val → hostRead i s = s.din[j])
    ∧ (∀ j : Fin 4, n = 0x14 + j.val → hostRead i s = s.dout[j])
    ∧ (∀ j : Fin 4, n = 0x18 + j.val →
        hostRead i s = word (s.cv[4 * j.val]'(by omega)) (s.cv[4 * j.val + 1]'(by omega)) (s.cv[4 * j.val + 2]'(by omega))
          (s.cv[4 * j.val + 3]'(by omega)))
    ∧ (∀ k : Fin 60, n = 0x40 + k.val →
        hostRead i s = if s.ksValid = true ∧ k.val < 4 * (s.nr.val + 1) then s.ks[k] else 0#32)
    ∧ (n = 0x00 ∨ (0x02 ≤ n ∧ n ≤ 0x0B) ∨ (0x1C ≤ n ∧ n ≤ 0x3F) ∨ 0x7C ≤ n → hostRead i s = 0#32)

/-- R244: what a write of every word index does. -/
def Obligations.HostWriteMap : Prop :=
  ∀ (s : State) (i : Index) (v : Word) (n : Nat), n = i.toNat →
    (n = 0x00 → hostWrite i v s = perform v s)
    ∧ (∀ j : Fin 8, n = 0x04 + j.val → hostWrite i v s = .next { s with keybuf := s.keybuf.set j v })
    ∧ (∀ j : Fin 4, n = 0x0C + j.val → hostWrite i v s = .next { s with iv := s.iv.set j v })
    ∧ (∀ j : Fin 4, n = 0x10 + j.val → hostWrite i v s = .next { s with din := s.din.set j v })
    ∧ ((0x01 ≤ n ∧ n ≤ 0x03) ∨ 0x14 ≤ n → hostWrite i v s = .next s)

/-- R67, R246: a read step returns `HostRead(i)` and changes no state of the core. -/
def Obligations.ReadsHaveNoSideEffects : Prop :=
  ∀ (s : State) (i : Index) (rest : List Access), s.busy = false → s.pending = .read i :: rest →
    step s = .next { s with pending := rest, replies := hostRead i s :: s.replies }

/-- R298: while `BUSY = 1` only a `STATUS` read is admitted; every other host access is a fault. -/
def Obligations.AccessWhileBusyFaults : Prop :=
  ∀ (s : State) (rest : List Access), s.busy = true →
    (∀ i v, s.pending = .write i v :: rest → step s = .fault .hostAccessWhileBusy)
    ∧ (∀ i, i ≠ 1#7 → s.pending = .read i :: rest → step s = .fault .hostAccessWhileBusy)
    ∧ (s.pending = .read 1#7 :: rest → step s = .next { s with pending := rest, replies := status s :: s.replies })

/-- R245, R246: a step whose next access writes a command's word to `CTRL` runs that command, with the access taken off;
any other first access is made likewise; with none pending nothing changes (the model's choice, log entry 3). A
hardware reset is made as `RESET` is, sequencing registers included (the model's choice, log entries 1 and 7). -/
def Obligations.StepRunsTheDecodedCommand : Prop :=
  (∀ (s : State) (w : Word) (i : Instr) (rest : List Access), s.busy = false → s.pending = .write 0#7 w :: rest →
    decode w = .ok i → step s = exec i { s with pending := rest })
  ∧ (∀ (s : State) (x : Index) (v : Word) (rest : List Access), s.busy = false → s.pending = .write x v :: rest →
    step s = hostWrite x v { s with pending := rest })
  ∧ (∀ (s : State) (rest : List Access) (l : BitVec 6) (k : BitVec 9), s.pending = .hardwareReset :: rest →
    step s = exec (.reset l k) { s with pending := rest })
  ∧ (∀ s : State, s.pending = [] → step s = .next s)

/-! ### Whole-machine statements -/

/-- The invariant holds after reset. -/
def Obligations.ConsistentAtReset : Prop := Consistent State.reset

/-- R35, R36, R37, R40, R263: every step keeps the invariant, from every state that meets it. -/
def Obligations.ConsistentIsKept : Prop :=
  ∀ s t : State, Consistent s → step s = .next t → Consistent t

/-- R298, R245: from a consistent state no step stops the machine. -/
def Obligations.ConsistentStepsComplete : Prop :=
  ∀ s : State, Consistent s → ∃ t, step s = .next t

/-- R39, U1: the sequencing registers are invisible: whatever they hold, a step does the same to everything else. -/
def Obligations.SequencersAreInvisible : Prop :=
  ∀ (s t : State) (k : BitVec 6) (tm : Word) (rc : Byte) (rd : BitVec 4) (n : Nat), step s = .next t →
    ∃ k' tm' rc' rd' n',
      step { s with ksi := k, temp := tm, rcon := rc, round := rd, freeIdx := n }
        = .next { t with ksi := k', temp := tm', rcon := rc', round := rd', freeIdx := n' }

/-- R303: what the streams of any run are. Each begins with its `START`. One that ended normally ended in a state with
`STREAM = DONE` and `ERR = NONE`; one that failed ended in one with `STREAM = FAILED`, and `ERR` held `STREAM_TRUNCATED` or
`PADDING_INVALID`; one that has not ended is the run's last, and `STREAM` is `ENC_RUN` or `DEC_RUN` at the run's end. What
the rule leaves to a reader in cutting a run into streams is log entry 10. -/
def Obligations.StreamsEndByTheRule : Prop :=
  ∀ (as : List Access) (s u : State) (ms : List Made), session as s = some (u, ms) → ∀ r ∈ streams ms,
    (∃ m, r.made.head? = some m ∧ m.opens = some r.kind)
    ∧ (r.ending = .normally → ∃ m, r.made.getLast? = some m ∧ m.after.stream = .done ∧ m.after.err = .none)
    ∧ (∀ code, r.ending = .failed code → (code = .streamTruncated ∨ code = .paddingInvalid)
        ∧ ∃ m, r.made.getLast? = some m ∧ m.after.stream = .failed ∧ m.after.err = code)
    ∧ (r.ending = .replaced → ∃ m, r.made.getLast? = some m ∧ m.replaces = true)
    ∧ (r.ending = .notEnded → (streams ms).getLast? = some r ∧ (u.stream = .encRun ∨ u.stream = .decRun))

/-- R205: encrypting the plaintext `blocks ++ tail[0..n-1]` from a clean launch: the run is one stream, it ends normally,
and its output is the IV followed by the CBC encryption of the full blocks and the padded last block, `16 + 16·(⌊L/16⌋ + 1)`
bytes. R305: with a fresh IV, and for a host that owes nothing at the launch (`HostRecord.start`: DESIGN CHOICE, log entry
15), these accesses keep every host duty (the model's reading of the duties, log entry 6). -/
def Obligations.EncryptionStream : Prop :=
  ∀ (s : State) (iv : Block) (blocks : List Block) (tail : Block) (n : Nat), cleanLaunch s → n ≤ 15 →
    ∃ u ms r, session (encAccesses iv blocks tail n) s = some (u, ms) ∧ streams ms = [r]
      ∧ r.kind = .encryption ∧ r.ending = .normally
      ∧ u.stream = .done ∧ u.err = .none ∧ u.ks = s.ks ∧ u.nr = s.nr ∧ u.busy = false ∧ u.ksValid = true
      ∧ r.output = iv.toList ++ flatBytes (cbcEncrypt s.ks s.nr.val iv (blocks ++ [pad tail n]))
      ∧ r.output.length = 16 + 16 * (blocks.length + 1)
      ∧ ∀ used : List Block, iv ∉ used → dutiful (.start [] [16 * blocks.length + n] used) ms = true

/-- R209: decrypting a ciphertext stream of `T` bytes, all four rows of the rule's table, from a clean launch: the run is
one stream, with the output and the ending of its row. R305: for a host that owes nothing at the launch
(`HostRecord.start`: DESIGN CHOICE, log entry 15), these accesses keep every host duty (the model's reading of the duties,
log entry 6). -/
def Obligations.DecryptionStream : Prop :=
  ∀ (s : State) (used : List Block), cleanLaunch s →
    (∀ (d : Block) (m : BitVec 6), m.toNat ≤ 15 →
      ∃ u ms r, session (loadDin d ++ issue (.decStart m 0)) s = some (u, ms) ∧ streams ms = [r]
        ∧ r.kind = .decryption ∧ r.ending = .failed .streamTruncated ∧ r.output = []
        ∧ dutiful (.start [] [m.toNat] used) ms = true)
    ∧ (∀ iv rest : Block,
      ∃ u ms r, session (decAccesses iv [] rest 0) s = some (u, ms) ∧ streams ms = [r]
        ∧ r.kind = .decryption ∧ r.ending = .failed .streamTruncated ∧ r.output = []
        ∧ dutiful (.start [] [16] used) ms = true)
    ∧ (∀ (iv : Block) (cs : List Block) (rest : Block) (n : Nat), 1 ≤ n → n ≤ 15 →
      ∃ u ms r, session (decAccesses iv cs rest n) s = some (u, ms) ∧ streams ms = [r]
        ∧ r.kind = .decryption ∧ r.ending = .failed .streamTruncated
        ∧ r.output = flatBytes (cbcDecrypt s.ks s.nr.val iv cs)
        ∧ dutiful (.start [] [16 + 16 * cs.length + n] used) ms = true)
    ∧ (∀ (iv : Block) (cs : List Block) (c rest : Block) (ps : List Block) (p : Block),
      cbcDecrypt s.ks s.nr.val iv (cs ++ [c]) = ps ++ [p] →
      ∃ u ms r, session (decAccesses iv (cs ++ [c]) rest 0) s = some (u, ms) ∧ streams ms = [r]
        ∧ r.kind = .decryption
        ∧ (padValid p = true → r.ending = .normally ∧ r.output = flatBytes ps ++ p.toList.take (16 - p[15].toNat))
        ∧ (padValid p = false → r.ending = .failed .paddingInvalid ∧ r.output = flatBytes ps)
        ∧ dutiful (.start [] [16 + 16 * (cs.length + 1)] used) ms = true)

/-- R210: the round trip. For every key schedule, IV and plaintext (of any length, the empty one too): the encryption is one
stream that ends normally; its output is the IV and whole ciphertext blocks; and decrypting those under the same schedule
is one stream that ends normally and gives exactly the plaintext. -/
def Obligations.StreamRoundTrip : Prop :=
  ∀ (s s' : State) (iv : Block) (blocks : List Block) (tail : Block) (n : Nat), n ≤ 15 →
    cleanLaunch s → cleanLaunch s' → s'.ks = s.ks → s'.nr = s.nr →
    ∃ u ms r cs, session (encAccesses iv blocks tail n) s = some (u, ms) ∧ streams ms = [r] ∧ r.ending = .normally
      ∧ r.output = iv.toList ++ flatBytes cs
      ∧ ∀ rest : Block, ∃ u' ms' r', session (decAccesses iv cs rest 0) s' = some (u', ms') ∧ streams ms' = [r']
        ∧ r'.ending = .normally ∧ r'.output = flatBytes blocks ++ tail.toList.take n
end

