-- ==== Sys2Proof/Laws/Bytes.lean ====
section
/-! SUPPORT. The byte order, once: packing four bytes and reading them back, and the two views of a block. -/

namespace Sys2Proof.Machine

/-- Byte `k` of a packed word is the `k`-th byte packed (R9). -/
theorem byteOf_word (b : Fin 4 → Byte) (k : Fin 4) : byteOf (word (b 0) (b 1) (b 2) (b 3)) k = b k := by
  fin_cases k <;> (apply BitVec.eq_of_getLsbD_eq; intro i hi; simp [byteOf, word]) <;>
    interval_cases i <;> simp

/-- Packing a word's own bytes gives it back (R9). -/
theorem word_byteOf (w : Word) : word (byteOf w 0) (byteOf w 1) (byteOf w 2) (byteOf w 3) = w := by
  apply BitVec.eq_of_getLsbD_eq
  intro i hi
  simp [byteOf, word]
  interval_cases i <;> simp

/-- A packed word as a number: the first byte is the most significant (R9). -/
theorem word_toNat (a b c d : Byte) :
    (word a b c d).toNat = a.toNat * 2 ^ 24 + b.toNat * 2 ^ 16 + c.toNat * 2 ^ 8 + d.toNat := by
  have h := a.isLt; have h1 := b.isLt; have h2 := c.isLt; have h3 := d.isLt
  simp only [word, BitVec.toNat_or, BitVec.toNat_shiftLeft, BitVec.toNat_setWidth, Nat.shiftLeft_eq]
  rw [Nat.mod_eq_of_lt (a := a.toNat) (by omega), Nat.mod_eq_of_lt (a := b.toNat) (by omega),
    Nat.mod_eq_of_lt (a := c.toNat) (by omega), Nat.mod_eq_of_lt (a := d.toNat) (by omega),
    Nat.mod_eq_of_lt (by omega), Nat.mod_eq_of_lt (by omega), Nat.mod_eq_of_lt (by omega), Nat.or_assoc, Nat.or_assoc,
    ← Nat.shiftLeft_eq c.toNat 8, ← Nat.shiftLeft_add_eq_or_of_lt (by omega : d.toNat < 2 ^ 8), Nat.shiftLeft_eq,
    ← Nat.shiftLeft_eq b.toNat 16, ← Nat.shiftLeft_add_eq_or_of_lt (by omega), Nat.shiftLeft_eq,
    ← Nat.shiftLeft_eq a.toNat 24, ← Nat.shiftLeft_add_eq_or_of_lt (by omega), Nat.shiftLeft_eq]
  omega

/-- Byte `4j + k` of the block a register group holds is byte `k` of word `j` (R62). -/
theorem getElem_wordsBlock (x : Vector Word 4) (j k : Fin 4) :
    (wordsBlock x)[4 * j.val + k.val]'(by omega) = byteOf x[j] k := by
  have hr : rowOf ⟨4 * j.val + k.val, by omega⟩ = k := by apply Fin.ext; simp only [rowOf]; omega
  have hc : colOf ⟨4 * j.val + k.val, by omega⟩ = j := by apply Fin.ext; simp only [colOf]; omega
  simp only [wordsBlock, Vector.getElem_ofFn, hr, hc]

/-- A register group written from a block holds that block (R62, R86). -/
@[simp] theorem wordsBlock_blockWords (b : Block) : wordsBlock (blockWords b) = b := by
  apply Vector.ext
  intro i hi
  obtain ⟨j, k, h⟩ : ∃ j k : Fin 4, i = 4 * j.val + k.val := ⟨⟨i / 4, by omega⟩, ⟨i % 4, by omega⟩, by simp; omega⟩
  subst h
  rw [getElem_wordsBlock]
  have hw : (blockWords b)[j] = word (b[4 * j.val]'(by omega)) (b[4 * j.val + 1]'(by omega))
      (b[4 * j.val + 2]'(by omega)) (b[4 * j.val + 3]'(by omega)) := by
    simp only [blockWords, Fin.getElem_fin, Vector.getElem_ofFn]
  exact (congrArg (byteOf · k) hw).trans (byteOf_word (fun k : Fin 4 => b[4 * j.val + k.val]'(by omega)) k)

/-- A block read from a register group and written back leaves the group as it was (R62, R86). -/
@[simp] theorem blockWords_wordsBlock (x : Vector Word 4) : blockWords (wordsBlock x) = x := by
  apply Vector.ext
  intro j hj
  have h : ∀ k : Fin 4, (wordsBlock x)[4 * j + k.val]'(by omega) = byteOf x[j] k := fun k =>
    getElem_wordsBlock x ⟨j, hj⟩ k
  simp only [blockWords, Vector.getElem_ofFn]
  rw [← word_byteOf x[j], ← h 0, ← h 1, ← h 2, ← h 3]
  rfl

/-- The key bytes in order: byte `i` is byte `i mod 4` of word `i / 4` of `KEYBUF` (R24). -/
theorem keyBytes_eq_map (s : State) : keyBytes s
    = (List.finRange 32).map fun i => byteOf (s.keybuf[i.val / 4]'(by omega)) ⟨i.val % 4, by omega⟩ := by
  rw [keyBytes, Vector.toList_ofFn, List.ofFn_eq_map]

@[simp] theorem getElem_xorBlock (a b : Block) (i : Nat) (hi : i < 16) :
    (xorBlock a b)[i] = a[i] ^^^ b[i] := by simp [xorBlock]

/-- XOR with the same block twice gives the block back. -/
@[simp] theorem xorBlock_xorBlock (a k : Block) : xorBlock (xorBlock a k) k = a := by
  apply Vector.ext
  intro i hi
  simp

/-- XOR of blocks may be regrouped. -/
theorem xorBlock_assoc (a b c : Block) : xorBlock (xorBlock a b) c = xorBlock a (xorBlock b c) := by
  apply Vector.ext
  intro i hi
  simp [BitVec.xor_assoc]

@[simp] theorem getElem_pad (d : Block) (n i : Nat) (hi : i < 16) :
    (pad d n)[i] = if i < n then d[i] else BitVec.ofNat 8 (16 - n) := by simp [pad]

/-- What `padValid` accepts, as a proposition (R201). -/
theorem padValid_iff (b : Block) : padValid b = true ↔
    1 ≤ b[15].toNat ∧ b[15].toNat ≤ 16 ∧ ∀ k : Fin 16, 16 - b[15].toNat ≤ k.val → b[k] = b[15] := by
  simp only [padValid, decide_eq_true_eq]

end Sys2Proof.Machine
end

