-- ==== Sys2Proof/Laws/BlockTransform.lean ====
section
/-! SUPPORT. The cells of a block through each round primitive (42_block_transform.md R161 to R167). -/

namespace Sys2Proof.Machine

@[simp] theorem rowOf_cell (r c : Fin 4) : rowOf ⟨r.val + 4 * c.val, by omega⟩ = r := by
  apply Fin.ext; simp [rowOf]

@[simp] theorem colOf_cell (r c : Fin 4) : colOf ⟨r.val + 4 * c.val, by omega⟩ = c := by
  apply Fin.ext; simp [colOf]; omega

@[simp] theorem cell_ofCells (f : Fin 4 → Fin 4 → Byte) (r c : Fin 4) : cell (ofCells f) r c = f r c := by
  simp only [cell, ofCells, Vector.getElem_ofFn, rowOf_cell, colOf_cell]

/-- A byte of a block is the cell of its row and column. -/
theorem getElem_eq_cell (s : Block) (i : Fin 16) : s[i] = cell s (rowOf i) (colOf i) := by
  simp only [cell, rowOf, colOf, Fin.getElem_fin]
  congr 1; omega

/-- Two blocks with the same cells are the same block. -/
theorem block_ext {s t : Block} (h : ∀ r c, cell s r c = cell t r c) : s = t := by
  apply Vector.ext; intro i hi
  have a := getElem_eq_cell s ⟨i, hi⟩
  have b := getElem_eq_cell t ⟨i, hi⟩
  simp only [Fin.getElem_fin] at a b
  rw [a, b, h]

@[simp] theorem cell_subBytes (s : Block) (r c : Fin 4) : cell (subBytes s) r c = sbox (cell s r c) := by
  simp [cell, subBytes]

@[simp] theorem cell_invSubBytes (s : Block) (r c : Fin 4) : cell (invSubBytes s) r c = invSbox (cell s r c) := by
  simp [cell, invSubBytes]

@[simp] theorem cell_xorBlock (s t : Block) (r c : Fin 4) :
    cell (xorBlock s t) r c = cell s r c ^^^ cell t r c := by
  simp [cell]

@[simp] theorem cell_addRoundKey (ks : Vector Word 60) (n : Nat) (s : Block) (r c : Fin 4) :
    cell (addRoundKey ks n s) r c = cell s r c ^^^ cell (roundKey ks n) r c := cell_xorBlock _ _ _ _

@[simp] theorem cell_shiftRows (s : Block) (r c : Fin 4) : cell (shiftRows s) r c = cell s r (c + r) :=
  cell_ofCells _ _ _

@[simp] theorem cell_invShiftRows (s : Block) (r c : Fin 4) : cell (invShiftRows s) r c = cell s r (c - r) :=
  cell_ofCells _ _ _

@[simp] theorem cell_mixColumns (s : Block) (r c : Fin 4) :
    cell (mixColumns s) r c = mixColumn (cell s 0 c) (cell s 1 c) (cell s 2 c) (cell s 3 c) r :=
  cell_ofCells _ _ _

@[simp] theorem cell_invMixColumns (s : Block) (r c : Fin 4) :
    cell (invMixColumns s) r c = invMixColumn (cell s 0 c) (cell s 1 c) (cell s 2 c) (cell s 3 c) r :=
  cell_ofCells _ _ _

end Sys2Proof.Machine
end

