-- ==== Sys2Proof/Laws/Decode.lean ====
section
/-! SUPPORT. The field laws of a command word: what packing puts in each field, and that the fields and the reserved
bits make up the whole word (30_encoding.md R81). -/

namespace Sys2Proof

theorem opField_packWord (op : BitVec 4) (len : BitVec 6) (kb : BitVec 9) :
    opField (packWord op len kb) = op := by
  apply BitVec.eq_of_getLsbD_eq; intro i hi; simp [opField, packWord]
  interval_cases i <;> simp

theorem lenField_packWord (op : BitVec 4) (len : BitVec 6) (kb : BitVec 9) :
    lenField (packWord op len kb) = len := by
  apply BitVec.eq_of_getLsbD_eq; intro i hi; simp [lenField, packWord]
  interval_cases i <;> simp

theorem keybitsField_packWord (op : BitVec 4) (len : BitVec 6) (kb : BitVec 9) :
    keybitsField (packWord op len kb) = kb := by
  apply BitVec.eq_of_getLsbD_eq; intro i hi; simp [keybitsField, packWord]
  interval_cases i <;> simp

theorem packWord_reserved (op : BitVec 4) (len : BitVec 6) (kb : BitVec 9) :
    packWord op len kb &&& reservedMask = 0#32 := by
  apply BitVec.eq_of_getLsbD_eq; intro i hi; simp [packWord, reservedMask]
  interval_cases i <;> simp

/-- A word with no reserved bit set is the packing of its own fields. -/
theorem packWord_fields (w : Word) (h : w &&& reservedMask = 0#32) :
    packWord (opField w) (lenField w) (keybitsField w) = w := by
  apply BitVec.eq_of_getLsbD_eq; intro i hi
  have := congrArg (fun v => v.getLsbD i) h
  revert this
  simp [packWord, opField, lenField, keybitsField, reservedMask]
  interval_cases i <;> simp

/-- A command the operation map gives has the operation and the fields it was given. -/
theorem instrOfOp_fields {op : BitVec 4} {len : BitVec 6} {kb : BitVec 9} {i : Instr}
    (h : instrOfOp op len kb = some i) : i.op = op ∧ i.len = len ∧ i.keybits = kb := by
  unfold instrOfOp at h
  split at h <;> simp at h <;> subst h <;> simp_all [Instr.op, Instr.len, Instr.keybits] <;>
    apply BitVec.eq_of_toNat_eq <;> simp_all

/-- The operation map finds every command by its own operation. -/
theorem instrOfOp_self (i : Instr) : instrOfOp i.op i.len i.keybits = some i := by
  cases i <;> rfl

/-- What a word that decodes has passed: the three checks of R82. -/
theorem decode_ok {w : Word} {i : Instr} (h : decode w = .ok i) :
    w &&& reservedMask = 0#32 ∧ instrOfOp (opField w) (lenField w) (keybitsField w) = some i
      ∧ i.wellFormed = true := by
  unfold decode at h
  split at h
  · cases h
  · rename_i hm
    split at h
    · cases h
    · split at h
      · cases h; exact ⟨Classical.not_not.mp hm, ‹_›, ‹_›⟩
      · cases h

end Sys2Proof
end

