-- ==== Sys2Proof/Laws/State.lean ====
section
/-! SUPPORT. For each operation on the state, one lemma per field, true by `rfl`: later proofs cite these and
unfold no record update. -/

namespace Sys2Proof.Machine

section

variable (s : State) (c : ErrCode)

@[simp] theorem State.fail_keybuf : (s.fail c).keybuf = s.keybuf := rfl
@[simp] theorem State.fail_iv : (s.fail c).iv = s.iv := rfl
@[simp] theorem State.fail_din : (s.fail c).din = s.din := rfl
@[simp] theorem State.fail_dout : (s.fail c).dout = s.dout := rfl
@[simp] theorem State.fail_outCount : (s.fail c).outCount = 0 := rfl
@[simp] theorem State.fail_cv : (s.fail c).cv = s.cv := rfl
@[simp] theorem State.fail_nextIv : (s.fail c).nextIv = s.nextIv := rfl
@[simp] theorem State.fail_state : (s.fail c).state = s.state := rfl
@[simp] theorem State.fail_ks : (s.fail c).ks = s.ks := rfl
@[simp] theorem State.fail_ksValid : (s.fail c).ksValid = s.ksValid := rfl
@[simp] theorem State.fail_nk : (s.fail c).nk = s.nk := rfl
@[simp] theorem State.fail_nr : (s.fail c).nr = s.nr := rfl
@[simp] theorem State.fail_stream : (s.fail c).stream = s.stream := rfl
@[simp] theorem State.fail_err : (s.fail c).err = c := rfl
@[simp] theorem State.fail_busy : (s.fail c).busy = s.busy := rfl
@[simp] theorem State.fail_ksi : (s.fail c).ksi = s.ksi := rfl
@[simp] theorem State.fail_temp : (s.fail c).temp = s.temp := rfl
@[simp] theorem State.fail_rcon : (s.fail c).rcon = s.rcon := rfl
@[simp] theorem State.fail_round : (s.fail c).round = s.round := rfl
@[simp] theorem State.fail_pending : (s.fail c).pending = s.pending := rfl
@[simp] theorem State.fail_replies : (s.fail c).replies = s.replies := rfl
@[simp] theorem State.fail_freeIdx : (s.fail c).freeIdx = s.freeIdx := rfl

end

section

variable (s : State)

@[simp] theorem State.clearKS_keybuf : (s.clearKS).keybuf = s.keybuf := rfl
@[simp] theorem State.clearKS_iv : (s.clearKS).iv = s.iv := rfl
@[simp] theorem State.clearKS_din : (s.clearKS).din = s.din := rfl
@[simp] theorem State.clearKS_dout : (s.clearKS).dout = s.dout := rfl
@[simp] theorem State.clearKS_outCount : (s.clearKS).outCount = s.outCount := rfl
@[simp] theorem State.clearKS_cv : (s.clearKS).cv = s.cv := rfl
@[simp] theorem State.clearKS_nextIv : (s.clearKS).nextIv = s.nextIv := rfl
@[simp] theorem State.clearKS_state : (s.clearKS).state = s.state := rfl
@[simp] theorem State.clearKS_ks : (s.clearKS).ks = Vector.replicate 60 0#32 := rfl
@[simp] theorem State.clearKS_ksValid : (s.clearKS).ksValid = false := rfl
@[simp] theorem State.clearKS_nk : (s.clearKS).nk = 0 := rfl
@[simp] theorem State.clearKS_nr : (s.clearKS).nr = 0 := rfl
@[simp] theorem State.clearKS_stream : (s.clearKS).stream = .idle := rfl
@[simp] theorem State.clearKS_err : (s.clearKS).err = s.err := rfl
@[simp] theorem State.clearKS_busy : (s.clearKS).busy = s.busy := rfl
@[simp] theorem State.clearKS_ksi : (s.clearKS).ksi = s.ksi := rfl
@[simp] theorem State.clearKS_temp : (s.clearKS).temp = s.temp := rfl
@[simp] theorem State.clearKS_rcon : (s.clearKS).rcon = s.rcon := rfl
@[simp] theorem State.clearKS_round : (s.clearKS).round = s.round := rfl
@[simp] theorem State.clearKS_pending : (s.clearKS).pending = s.pending := rfl
@[simp] theorem State.clearKS_replies : (s.clearKS).replies = s.replies := rfl
@[simp] theorem State.clearKS_freeIdx : (s.clearKS).freeIdx = s.freeIdx := rfl

end

section

variable (s : State) (b : Block) (n : Fin 17)

@[simp] theorem State.emit_keybuf : (s.emit b n).keybuf = s.keybuf := rfl
@[simp] theorem State.emit_iv : (s.emit b n).iv = s.iv := rfl
@[simp] theorem State.emit_din : (s.emit b n).din = s.din := rfl
@[simp] theorem State.emit_dout : (s.emit b n).dout = blockWords b := rfl
@[simp] theorem State.emit_outCount : (s.emit b n).outCount = n := rfl
@[simp] theorem State.emit_cv : (s.emit b n).cv = s.cv := rfl
@[simp] theorem State.emit_nextIv : (s.emit b n).nextIv = s.nextIv := rfl
@[simp] theorem State.emit_state : (s.emit b n).state = s.state := rfl
@[simp] theorem State.emit_ks : (s.emit b n).ks = s.ks := rfl
@[simp] theorem State.emit_ksValid : (s.emit b n).ksValid = s.ksValid := rfl
@[simp] theorem State.emit_nk : (s.emit b n).nk = s.nk := rfl
@[simp] theorem State.emit_nr : (s.emit b n).nr = s.nr := rfl
@[simp] theorem State.emit_stream : (s.emit b n).stream = s.stream := rfl
@[simp] theorem State.emit_err : (s.emit b n).err = .none := rfl
@[simp] theorem State.emit_busy : (s.emit b n).busy = s.busy := rfl
@[simp] theorem State.emit_ksi : (s.emit b n).ksi = s.ksi := rfl
@[simp] theorem State.emit_temp : (s.emit b n).temp = s.temp := rfl
@[simp] theorem State.emit_rcon : (s.emit b n).rcon = s.rcon := rfl
@[simp] theorem State.emit_round : (s.emit b n).round = s.round := rfl
@[simp] theorem State.emit_pending : (s.emit b n).pending = s.pending := rfl
@[simp] theorem State.emit_replies : (s.emit b n).replies = s.replies := rfl
@[simp] theorem State.emit_freeIdx : (s.emit b n).freeIdx = s.freeIdx := rfl

end

section

variable (s : State)

@[simp] theorem State.emitNothing_keybuf : (s.emitNothing).keybuf = s.keybuf := rfl
@[simp] theorem State.emitNothing_iv : (s.emitNothing).iv = s.iv := rfl
@[simp] theorem State.emitNothing_din : (s.emitNothing).din = s.din := rfl
@[simp] theorem State.emitNothing_dout : (s.emitNothing).dout = s.dout := rfl
@[simp] theorem State.emitNothing_outCount : (s.emitNothing).outCount = 0 := rfl
@[simp] theorem State.emitNothing_cv : (s.emitNothing).cv = s.cv := rfl
@[simp] theorem State.emitNothing_nextIv : (s.emitNothing).nextIv = s.nextIv := rfl
@[simp] theorem State.emitNothing_state : (s.emitNothing).state = s.state := rfl
@[simp] theorem State.emitNothing_ks : (s.emitNothing).ks = s.ks := rfl
@[simp] theorem State.emitNothing_ksValid : (s.emitNothing).ksValid = s.ksValid := rfl
@[simp] theorem State.emitNothing_nk : (s.emitNothing).nk = s.nk := rfl
@[simp] theorem State.emitNothing_nr : (s.emitNothing).nr = s.nr := rfl
@[simp] theorem State.emitNothing_stream : (s.emitNothing).stream = s.stream := rfl
@[simp] theorem State.emitNothing_err : (s.emitNothing).err = .none := rfl
@[simp] theorem State.emitNothing_busy : (s.emitNothing).busy = s.busy := rfl
@[simp] theorem State.emitNothing_ksi : (s.emitNothing).ksi = s.ksi := rfl
@[simp] theorem State.emitNothing_temp : (s.emitNothing).temp = s.temp := rfl
@[simp] theorem State.emitNothing_rcon : (s.emitNothing).rcon = s.rcon := rfl
@[simp] theorem State.emitNothing_round : (s.emitNothing).round = s.round := rfl
@[simp] theorem State.emitNothing_pending : (s.emitNothing).pending = s.pending := rfl
@[simp] theorem State.emitNothing_replies : (s.emitNothing).replies = s.replies := rfl
@[simp] theorem State.emitNothing_freeIdx : (s.emitNothing).freeIdx = s.freeIdx := rfl

end

section

variable (s : State) (v : Variant)

@[simp] theorem State.loadKey_keybuf : (s.loadKey v).keybuf = s.keybuf := rfl
@[simp] theorem State.loadKey_iv : (s.loadKey v).iv = s.iv := rfl
@[simp] theorem State.loadKey_din : (s.loadKey v).din = s.din := rfl
@[simp] theorem State.loadKey_dout : (s.loadKey v).dout = s.dout := rfl
@[simp] theorem State.loadKey_outCount : (s.loadKey v).outCount = s.outCount := rfl
@[simp] theorem State.loadKey_cv : (s.loadKey v).cv = s.cv := rfl
@[simp] theorem State.loadKey_nextIv : (s.loadKey v).nextIv = s.nextIv := rfl
@[simp] theorem State.loadKey_state : (s.loadKey v).state = s.state := rfl
@[simp] theorem State.loadKey_ks : (s.loadKey v).ks = expandKey v.keyWords.val ((keyBytes s).take (4 * v.keyWords.val)) := rfl
@[simp] theorem State.loadKey_ksValid : (s.loadKey v).ksValid = true := rfl
@[simp] theorem State.loadKey_nk : (s.loadKey v).nk = v.keyWords := rfl
@[simp] theorem State.loadKey_nr : (s.loadKey v).nr = v.rounds := rfl
@[simp] theorem State.loadKey_stream : (s.loadKey v).stream = .idle := rfl
@[simp] theorem State.loadKey_err : (s.loadKey v).err = s.err := rfl
@[simp] theorem State.loadKey_busy : (s.loadKey v).busy = s.busy := rfl
@[simp] theorem State.loadKey_ksi : (s.loadKey v).ksi = s.ksi := rfl
@[simp] theorem State.loadKey_temp : (s.loadKey v).temp = s.temp := rfl
@[simp] theorem State.loadKey_rcon : (s.loadKey v).rcon = s.rcon := rfl
@[simp] theorem State.loadKey_round : (s.loadKey v).round = s.round := rfl
@[simp] theorem State.loadKey_pending : (s.loadKey v).pending = s.pending := rfl
@[simp] theorem State.loadKey_replies : (s.loadKey v).replies = s.replies := rfl
@[simp] theorem State.loadKey_freeIdx : (s.loadKey v).freeIdx = s.freeIdx := rfl

end

section

variable (s : State)

@[simp] theorem State.sequencersFree_keybuf : (s.sequencersFree).keybuf = s.keybuf := rfl
@[simp] theorem State.sequencersFree_iv : (s.sequencersFree).iv = s.iv := rfl
@[simp] theorem State.sequencersFree_din : (s.sequencersFree).din = s.din := rfl
@[simp] theorem State.sequencersFree_dout : (s.sequencersFree).dout = s.dout := rfl
@[simp] theorem State.sequencersFree_outCount : (s.sequencersFree).outCount = s.outCount := rfl
@[simp] theorem State.sequencersFree_cv : (s.sequencersFree).cv = s.cv := rfl
@[simp] theorem State.sequencersFree_nextIv : (s.sequencersFree).nextIv = s.nextIv := rfl
@[simp] theorem State.sequencersFree_state : (s.sequencersFree).state = s.state := rfl
@[simp] theorem State.sequencersFree_ks : (s.sequencersFree).ks = s.ks := rfl
@[simp] theorem State.sequencersFree_ksValid : (s.sequencersFree).ksValid = s.ksValid := rfl
@[simp] theorem State.sequencersFree_nk : (s.sequencersFree).nk = s.nk := rfl
@[simp] theorem State.sequencersFree_nr : (s.sequencersFree).nr = s.nr := rfl
@[simp] theorem State.sequencersFree_stream : (s.sequencersFree).stream = s.stream := rfl
@[simp] theorem State.sequencersFree_err : (s.sequencersFree).err = s.err := rfl
@[simp] theorem State.sequencersFree_busy : (s.sequencersFree).busy = s.busy := rfl
@[simp] theorem State.sequencersFree_ksi : (s.sequencersFree).ksi = Config.freeKsi s.freeIdx := rfl
@[simp] theorem State.sequencersFree_temp : (s.sequencersFree).temp = Config.freeTemp s.freeIdx := rfl
@[simp] theorem State.sequencersFree_rcon : (s.sequencersFree).rcon = Config.freeRcon s.freeIdx := rfl
@[simp] theorem State.sequencersFree_round : (s.sequencersFree).round = Config.freeRound s.freeIdx := rfl
@[simp] theorem State.sequencersFree_pending : (s.sequencersFree).pending = s.pending := rfl
@[simp] theorem State.sequencersFree_replies : (s.sequencersFree).replies = s.replies := rfl
@[simp] theorem State.sequencersFree_freeIdx : (s.sequencersFree).freeIdx = s.freeIdx + 1 := rfl

end

section

variable (s : State)

@[simp] theorem State.toReset_keybuf : (s.toReset).keybuf = State.reset.keybuf := rfl
@[simp] theorem State.toReset_iv : (s.toReset).iv = State.reset.iv := rfl
@[simp] theorem State.toReset_din : (s.toReset).din = State.reset.din := rfl
@[simp] theorem State.toReset_dout : (s.toReset).dout = State.reset.dout := rfl
@[simp] theorem State.toReset_outCount : (s.toReset).outCount = State.reset.outCount := rfl
@[simp] theorem State.toReset_cv : (s.toReset).cv = State.reset.cv := rfl
@[simp] theorem State.toReset_nextIv : (s.toReset).nextIv = State.reset.nextIv := rfl
@[simp] theorem State.toReset_state : (s.toReset).state = State.reset.state := rfl
@[simp] theorem State.toReset_ks : (s.toReset).ks = State.reset.ks := rfl
@[simp] theorem State.toReset_ksValid : (s.toReset).ksValid = State.reset.ksValid := rfl
@[simp] theorem State.toReset_nk : (s.toReset).nk = State.reset.nk := rfl
@[simp] theorem State.toReset_nr : (s.toReset).nr = State.reset.nr := rfl
@[simp] theorem State.toReset_stream : (s.toReset).stream = State.reset.stream := rfl
@[simp] theorem State.toReset_err : (s.toReset).err = State.reset.err := rfl
@[simp] theorem State.toReset_busy : (s.toReset).busy = State.reset.busy := rfl
@[simp] theorem State.toReset_ksi : (s.toReset).ksi = Config.freeKsi s.freeIdx := rfl
@[simp] theorem State.toReset_temp : (s.toReset).temp = Config.freeTemp s.freeIdx := rfl
@[simp] theorem State.toReset_rcon : (s.toReset).rcon = Config.freeRcon s.freeIdx := rfl
@[simp] theorem State.toReset_round : (s.toReset).round = Config.freeRound s.freeIdx := rfl
@[simp] theorem State.toReset_pending : (s.toReset).pending = s.pending := rfl
@[simp] theorem State.toReset_replies : (s.toReset).replies = s.replies := rfl
@[simp] theorem State.toReset_freeIdx : (s.toReset).freeIdx = s.freeIdx + 1 := rfl

end

/-! The values of `State.reset`. -/

@[simp] theorem State.reset_keybuf : State.reset.keybuf = Vector.replicate 8 0#32 := rfl
@[simp] theorem State.reset_iv : State.reset.iv = Vector.replicate 4 0#32 := rfl
@[simp] theorem State.reset_din : State.reset.din = Vector.replicate 4 0#32 := rfl
@[simp] theorem State.reset_dout : State.reset.dout = Vector.replicate 4 0#32 := rfl
@[simp] theorem State.reset_outCount : State.reset.outCount = 0 := rfl
@[simp] theorem State.reset_cv : State.reset.cv = Vector.replicate 16 0#8 := rfl
@[simp] theorem State.reset_nextIv : State.reset.nextIv = Vector.replicate 16 0#8 := rfl
@[simp] theorem State.reset_state : State.reset.state = Vector.replicate 16 0#8 := rfl
@[simp] theorem State.reset_ks : State.reset.ks = Vector.replicate 60 0#32 := rfl
@[simp] theorem State.reset_ksValid : State.reset.ksValid = false := rfl
@[simp] theorem State.reset_nk : State.reset.nk = 0 := rfl
@[simp] theorem State.reset_nr : State.reset.nr = 0 := rfl
@[simp] theorem State.reset_stream : State.reset.stream = .idle := rfl
@[simp] theorem State.reset_err : State.reset.err = .none := rfl
@[simp] theorem State.reset_busy : State.reset.busy = false := rfl
@[simp] theorem State.reset_ksi : State.reset.ksi = 0#6 := rfl
@[simp] theorem State.reset_temp : State.reset.temp = 0#32 := rfl
@[simp] theorem State.reset_rcon : State.reset.rcon = 0#8 := rfl
@[simp] theorem State.reset_round : State.reset.round = 0#4 := rfl
@[simp] theorem State.reset_pending : State.reset.pending = [] := rfl
@[simp] theorem State.reset_replies : State.reset.replies = [] := rfl
@[simp] theorem State.reset_freeIdx : State.reset.freeIdx = 0 := rfl

end Sys2Proof.Machine
end

