-- ==== Sys2Proof/Laws/Exec.lean ====
section
/-! SUPPORT. For each command, everything it can do (its spec lemma: `execX_cases`), and that every command answers a
next state (44_control.md R245). Later proofs cite these and unfold no meaning. -/

namespace Sys2Proof.Machine

variable {s t : State} {len : BitVec 6} {kb : BitVec 9}

theorem execNop_cases (h : execNop s = .next t) : t = s := by
  injection h with h; exact h.symm

theorem execReset_cases (h : execReset s = .next t) : t = s.toReset := by
  injection h with h; exact h.symm

/-- Everything `INIT` can do (R136). -/
theorem execInit_cases (h : execInit len kb s = .next t) :
    (32 < len.toNat ∧ t = s.fail .illegalCommand)
    ∨ (len.toNat ≤ 32 ∧ requestedVariant kb = none ∧ t = s.clearKS.fail .unsupportedVariant)
    ∨ (∃ v, len.toNat ≤ 32 ∧ requestedVariant kb = some v ∧ len.toNat < 4 * v.keyWords.val
        ∧ t = s.clearKS.fail .invalidKeyLength)
    ∨ (∃ v, len.toNat ≤ 32 ∧ requestedVariant kb = some v ∧ 4 * v.keyWords.val ≤ len.toNat
        ∧ t = (s.loadKey v).emitNothing.sequencersFree) := by
  unfold execInit at h
  split at h
  · injection h with h; exact .inl ⟨‹_›, h.symm⟩
  · rename_i hl
    split at h
    · injection h with h; exact .inr (.inl ⟨Nat.not_lt.mp hl, ‹_›, h.symm⟩)
    · split at h
      · injection h with h; exact .inr (.inr (.inl ⟨_, Nat.not_lt.mp hl, ‹_›, ‹_›, h.symm⟩))
      · rename_i hk
        injection h with h; exact .inr (.inr (.inr ⟨_, Nat.not_lt.mp hl, ‹_›, Nat.not_lt.mp hk, h.symm⟩))

/-- A Boolean field that is not false is true. -/
theorem true_of_not_false {b : Bool} (h : ¬b = false) : b = true := by simpa using h

/-- Everything `ECB_ENC` can do (R173). -/
theorem execEcbEnc_cases (h : execEcbEnc s = .next t) :
    (s.ksValid = false ∧ t = s.fail .noKey)
    ∨ (s.ksValid = true ∧ t = ({ s with state := cipher s.ks s.nr.val (inputBlock s) }.emit
        (cipher s.ks s.nr.val (inputBlock s)) 16).sequencersFree) := by
  unfold execEcbEnc at h
  split at h
  · injection h with h; exact .inl ⟨‹_›, h.symm⟩
  · injection h with h; exact .inr ⟨true_of_not_false ‹_›, h.symm⟩

/-- Everything `ECB_DEC` can do (R174). -/
theorem execEcbDec_cases (h : execEcbDec s = .next t) :
    (s.ksValid = false ∧ t = s.fail .noKey)
    ∨ (s.ksValid = true ∧ t = ({ s with state := invCipher s.ks s.nr.val (inputBlock s) }.emit
        (invCipher s.ks s.nr.val (inputBlock s)) 16).sequencersFree) := by
  unfold execEcbDec at h
  split at h
  · injection h with h; exact .inl ⟨‹_›, h.symm⟩
  · injection h with h; exact .inr ⟨true_of_not_false ‹_›, h.symm⟩

/-- Everything `ENC_START` can do (R202). -/
theorem execEncStart_cases (h : execEncStart s = .next t) :
    (s.ksValid = false ∧ t = s.fail .noKey)
    ∨ (s.ksValid = true ∧
        t = ({ s with cv := ivBlock s, stream := .encRun }.emit (ivBlock s) 16).sequencersFree) := by
  unfold execEncStart at h
  split at h
  · injection h with h; exact .inl ⟨‹_›, h.symm⟩
  · injection h with h; exact .inr ⟨true_of_not_false ‹_›, h.symm⟩

/-- Everything `ENC_BLOCK` can do (R203), `c` being the block it computes. -/
theorem execEncBlock_cases (h : execEncBlock s = .next t) :
    (s.ksValid = false ∧ t = s.fail .noKey)
    ∨ (s.ksValid = true ∧ s.stream ≠ .encRun ∧ t = s.fail .badSequence)
    ∨ (s.ksValid = true ∧ s.stream = .encRun ∧ ∃ c, c = cipher s.ks s.nr.val (xorBlock (inputBlock s) s.cv) ∧
        t = ({ s with state := c, cv := c }.emit c 16).sequencersFree) := by
  unfold execEncBlock at h
  split at h
  · injection h with h; exact .inl ⟨‹_›, h.symm⟩
  · rename_i hk
    split at h
    · injection h with h; exact .inr (.inl ⟨true_of_not_false hk, ‹_›, h.symm⟩)
    · rename_i hs
      injection h with h
      exact .inr (.inr ⟨true_of_not_false hk, Classical.not_not.mp hs, _, rfl, h.symm⟩)

/-- Everything `ENC_FINAL` can do (R204), `c` being the block it computes. -/
theorem execEncFinal_cases (h : execEncFinal len s = .next t) :
    (15 < len.toNat ∧ t = s.fail .illegalCommand)
    ∨ (len.toNat ≤ 15 ∧ s.ksValid = false ∧ t = s.fail .noKey)
    ∨ (len.toNat ≤ 15 ∧ s.ksValid = true ∧ s.stream ≠ .encRun ∧ t = s.fail .badSequence)
    ∨ (len.toNat ≤ 15 ∧ s.ksValid = true ∧ s.stream = .encRun ∧
        ∃ c, c = cipher s.ks s.nr.val (xorBlock (pad (inputBlock s) len.toNat) s.cv) ∧
        t = ({ s with state := c, cv := c, stream := .done }.emit c 16).sequencersFree) := by
  unfold execEncFinal at h
  split at h
  · injection h with h; exact .inl ⟨‹_›, h.symm⟩
  · rename_i hl
    have hl := Nat.not_lt.mp hl
    split at h
    · injection h with h; exact .inr (.inl ⟨hl, ‹_›, h.symm⟩)
    · rename_i hk
      have hk := true_of_not_false hk
      split at h
      · injection h with h; exact .inr (.inr (.inl ⟨hl, hk, ‹_›, h.symm⟩))
      · rename_i hs
        injection h with h
        exact .inr (.inr (.inr ⟨hl, hk, Classical.not_not.mp hs, _, rfl, h.symm⟩))

/-- Everything `DEC_START` can do (R206). -/
theorem execDecStart_cases (h : execDecStart len s = .next t) :
    (16 < len.toNat ∧ t = s.fail .illegalCommand)
    ∨ (len.toNat ≤ 16 ∧ s.ksValid = false ∧ t = s.fail .noKey)
    ∨ (len.toNat < 16 ∧ s.ksValid = true ∧ t = { s with stream := .failed }.fail .streamTruncated)
    ∨ (len.toNat = 16 ∧ s.ksValid = true ∧
        t = { s with cv := inputBlock s, stream := .decRun }.emitNothing.sequencersFree) := by
  unfold execDecStart at h
  split at h
  · injection h with h; exact .inl ⟨‹_›, h.symm⟩
  · rename_i hl
    have hl := Nat.not_lt.mp hl
    split at h
    · injection h with h; exact .inr (.inl ⟨hl, ‹_›, h.symm⟩)
    · rename_i hk
      have hk := true_of_not_false hk
      split at h
      · injection h with h; exact .inr (.inr (.inl ⟨‹_›, hk, h.symm⟩))
      · rename_i hf
        injection h with h; exact .inr (.inr (.inr ⟨Nat.le_antisymm hl (Nat.not_lt.mp hf), hk, h.symm⟩))

/-- Everything `DEC_BLOCK` can do (R208). -/
theorem execDecBlock_cases (h : execDecBlock s = .next t) :
    (s.ksValid = false ∧ t = s.fail .noKey)
    ∨ (s.ksValid = true ∧ s.stream ≠ .decRun ∧ t = s.fail .badSequence)
    ∨ (s.ksValid = true ∧ s.stream = .decRun ∧ ∃ o, o = invCipher s.ks s.nr.val (inputBlock s) ∧
        t = ({ s with nextIv := inputBlock s, state := o, cv := inputBlock s }.emit
          (xorBlock o s.cv) 16).sequencersFree) := by
  unfold execDecBlock at h
  split at h
  · injection h with h; exact .inl ⟨‹_›, h.symm⟩
  · rename_i hk
    split at h
    · injection h with h; exact .inr (.inl ⟨true_of_not_false hk, ‹_›, h.symm⟩)
    · rename_i hs
      injection h with h
      exact .inr (.inr ⟨true_of_not_false hk, Classical.not_not.mp hs, _, rfl, h.symm⟩)

/-- Everything `DEC_FINAL` can do (R207), `o` being the block it deciphers and `p` the plaintext block. -/
theorem execDecFinal_cases (h : execDecFinal len s = .next t) :
    (16 < len.toNat ∧ t = s.fail .illegalCommand)
    ∨ (len.toNat ≤ 16 ∧ s.ksValid = false ∧ t = s.fail .noKey)
    ∨ (len.toNat ≤ 16 ∧ s.ksValid = true ∧ s.stream ≠ .decRun ∧ t = s.fail .badSequence)
    ∨ (len.toNat < 16 ∧ s.ksValid = true ∧ s.stream = .decRun
        ∧ t = { s with stream := .failed }.fail .streamTruncated)
    ∨ (len.toNat = 16 ∧ s.ksValid = true ∧ s.stream = .decRun ∧
        ∃ o p, o = invCipher s.ks s.nr.val (inputBlock s) ∧ p = xorBlock o s.cv ∧
        ((padValid p = true ∧ t = ({ s with
            nextIv := inputBlock s, state := o, cv := inputBlock s, stream := .done }.emit p
              (plainCount p)).sequencersFree)
          ∨ (padValid p = false ∧ t = ({ s with
            nextIv := inputBlock s, state := o, cv := inputBlock s, stream := .failed }.fail
              .paddingInvalid).sequencersFree))) := by
  unfold execDecFinal at h
  split at h
  · injection h with h; exact .inl ⟨‹_›, h.symm⟩
  · rename_i hl
    have hl := Nat.not_lt.mp hl
    split at h
    · injection h with h; exact .inr (.inl ⟨hl, ‹_›, h.symm⟩)
    · rename_i hk
      have hk := true_of_not_false hk
      split at h
      · injection h with h; exact .inr (.inr (.inl ⟨hl, hk, ‹_›, h.symm⟩))
      · rename_i hs
        have hs := Classical.not_not.mp hs
        split at h
        · injection h with h; exact .inr (.inr (.inr (.inl ⟨‹_›, hk, hs, h.symm⟩)))
        · rename_i hf
          have hf := Nat.le_antisymm hl (Nat.not_lt.mp hf)
          refine .inr (.inr (.inr (.inr ⟨hf, hk, hs, ?_⟩)))
          dsimp only at h
          generalize ho : invCipher s.ks s.nr.val (inputBlock s) = o at h
          generalize hp : xorBlock o s.cv = p at h
          refine ⟨o, p, rfl, hp.symm, ?_⟩
          split at h
          · injection h with h; exact .inl ⟨‹_›, h.symm⟩
          · injection h with h; exact .inr ⟨by simpa using ‹¬padValid p = true›, h.symm⟩

end Sys2Proof.Machine
end

