-- ==== Sys2Proof/Laws/Gf.lean ====
section
/-! SUPPORT. The laws of the GF(2^8) multiplier that later proofs cite: `xtime` and `gmul` are additive. -/

namespace Sys2Proof.Machine

/-- `t` when the bit is set, else zero: the summand of one turn of the loop of R101. -/
def pick (b : Bool) (t : Byte) : Byte := if b then t else 0#8

@[simp] theorem pick_true (t : Byte) : pick true t = t := rfl
@[simp] theorem pick_false (t : Byte) : pick false t = 0#8 := rfl

theorem pick_xor (b c : Bool) (t : Byte) : pick (b ^^ c) t = pick b t ^^^ pick c t := by
  cases b <;> cases c <;> simp

theorem pick_xor_value (b : Bool) (t u : Byte) : pick b (t ^^^ u) = pick b t ^^^ pick b u := by
  cases b <;> simp

/-- Doubling is additive: the reduction constant cancels when both high bits are set. -/
theorem xtime_xor (x y : Byte) : xtime (x ^^^ y) = xtime x ^^^ xtime y := by
  have cancel : ∀ u v c : Byte, u ^^^ v = u ^^^ c ^^^ (v ^^^ c) := by
    intro u v c
    rw [show u ^^^ c ^^^ (v ^^^ c) = u ^^^ v ^^^ (c ^^^ c) by ac_rfl, BitVec.xor_self, BitVec.xor_zero]
  unfold xtime
  rw [BitVec.getLsbD_xor, BitVec.shiftLeft_xor_distrib]
  cases x.getLsbD 7 <;> cases y.getLsbD 7 <;> simp <;> first | exact cancel _ _ _ | ac_rfl

/-- The loop of R101 as one sum: bit `k` of `b` adds `a` doubled `k` times. -/
theorem gmul_unfold (a b : Byte) : gmul a b =
    pick (b.getLsbD 0) a ^^^ pick (b.getLsbD 1) (xtime a) ^^^ pick (b.getLsbD 2) (xtime (xtime a))
    ^^^ pick (b.getLsbD 3) (xtime (xtime (xtime a)))
    ^^^ pick (b.getLsbD 4) (xtime (xtime (xtime (xtime a))))
    ^^^ pick (b.getLsbD 5) (xtime (xtime (xtime (xtime (xtime a)))))
    ^^^ pick (b.getLsbD 6) (xtime (xtime (xtime (xtime (xtime (xtime a))))))
    ^^^ pick (b.getLsbD 7) (xtime (xtime (xtime (xtime (xtime (xtime (xtime a))))))) := by
  have turn : ∀ (c : Bool) (r t : Byte), (if c then r ^^^ t else r) = r ^^^ pick c t := by
    intro c r t; cases c <;> simp
  simp only [gmul, List.range, List.range.loop, List.foldl, gmulStep, turn]
  rw [show (0#8 : Byte) ^^^ pick (b.getLsbD 0) a = pick (b.getLsbD 0) a from BitVec.zero_xor]

theorem gmul_xor_right (a x y : Byte) : gmul a (x ^^^ y) = gmul a x ^^^ gmul a y := by
  simp only [gmul_unfold, BitVec.getLsbD_xor, pick_xor]
  ac_rfl

theorem gmul_xor_left (x y b : Byte) : gmul (x ^^^ y) b = gmul x b ^^^ gmul y b := by
  simp only [gmul_unfold, xtime_xor, pick_xor_value]
  ac_rfl

/-- Every byte is the sum of its bits, so an additive map is known from the eight powers of two. -/
theorem byte_eq_sum_bits (b : Byte) :
    b = pick (b.getLsbD 0) 1#8 ^^^ pick (b.getLsbD 1) 2#8 ^^^ pick (b.getLsbD 2) 4#8 ^^^ pick (b.getLsbD 3) 8#8
      ^^^ pick (b.getLsbD 4) 16#8 ^^^ pick (b.getLsbD 5) 32#8 ^^^ pick (b.getLsbD 6) 64#8
      ^^^ pick (b.getLsbD 7) 128#8 := by
  revert b; decide +kernel

theorem gmul_zero_left (a : Byte) : gmul 0#8 a = 0#8 := by revert a; decide +kernel

theorem gmul_zero_right (a : Byte) : gmul a 0#8 = 0#8 := by revert a; decide +kernel

theorem gmul_pick_left (c : Bool) (t b : Byte) : gmul (pick c t) b = pick c (gmul t b) := by
  cases c <;> simp [gmul_zero_left]

theorem gmul_pick_right (a : Byte) (c : Bool) (t : Byte) : gmul a (pick c t) = pick c (gmul a t) := by
  cases c <;> simp [gmul_zero_right]

theorem xtime_pick (c : Bool) (t : Byte) : xtime (pick c t) = pick c (xtime t) := by
  cases c <;> simp; decide

end Sys2Proof.Machine
end

