-- ==== Sys2Proof/Laws/KeySchedule.lean ====
section
/-! SUPPORT. The loop invariant of the key-expansion unit (41_key_schedule.md R134), and what a variant request
means (R85). -/

namespace Sys2Proof.Machine

/-- Reading a word of the schedule after one was written. -/
theorem ksWord_set (w : Vector Word 60) (j i : Nat) (v : Word) :
    ksWord (w.setIfInBounds j v) i = if j = i ∧ i < 60 then v else ksWord w i := by
  unfold ksWord
  rw [Vector.getElem?_setIfInBounds]
  split
  · subst_vars; split <;> simp_all
  · simp_all

/-- What holds of the unit after any number of iterations: its round constant is the one the next use needs, the words
made so far follow the recurrence, and those not yet made are 0. -/
structure ExpanderInv (nk : Nat) (e : Expander) : Prop where
  started : nk ≤ e.ksi
  constant : e.rcon = roundConst ((e.ksi - 1) / nk + 1)
  recurrence : ∀ i, nk ≤ i → i < e.ksi → i < 60 →
    ksWord e.w i = ksWord e.w (i - nk) ^^^ expandTemp nk i (roundConst (i / nk)) (ksWord e.w (i - 1))
  rest : ∀ i, e.ksi ≤ i → ksWord e.w i = 0#32

/-- When the constant is used (`KSI mod Nk = 0`) it is number `KSI / Nk`. -/
theorem ExpanderInv.constant_used {nk : Nat} {e : Expander} (hn : 0 < nk) (h : ExpanderInv nk e)
    (h0 : e.ksi % nk = 0) : e.rcon = roundConst (e.ksi / nk) := by
  rw [h.constant]; congr 1
  obtain ⟨q, hq⟩ := Nat.dvd_of_mod_eq_zero h0
  have hl := h.started
  rw [hq]
  have hq0 : 0 < q := by
    rcases Nat.eq_zero_or_pos q with h1 | h1
    · subst h1; simp at hq; omega
    · exact h1
  rw [Nat.mul_div_cancel_left _ hn]
  obtain ⟨q', rfl⟩ : ∃ q', q = q' + 1 := ⟨q - 1, by omega⟩
  have : nk * (q' + 1) - 1 = nk * q' + (nk - 1) := by rw [Nat.mul_add]; omega
  rw [this, Nat.mul_add_div hn, Nat.div_eq_of_lt (by omega)]

theorem expanderInv_init (nk : Nat) (hn : 0 < nk) (key : List Byte) : ExpanderInv nk (expanderInit nk key) := by
  constructor
  · simp [expanderInit]
  · simp only [expanderInit]
    rw [Nat.div_eq_of_lt (by omega)]; rfl
  · intro i h1 h2 h3; simp only [expanderInit] at h2; omega
  · intro i hi
    simp only [expanderInit] at hi ⊢
    by_cases h : i < 60
    · simp [ksWord, h]; intro; omega
    · simp [ksWord, h]

theorem expanderInv_step (nk : Nat) (hn : 0 < nk) (e : Expander) (h : ExpanderInv nk e) (hk : e.ksi < 60) :
    ExpanderInv nk (expandStep nk e) := by
  constructor
  · have := h.started; simp [expandStep]; omega
  · simp only [expandStep]
    split
    · rename_i h0
      rw [h.constant_used hn h0]
      simp only [Nat.add_sub_cancel]
      have : 0 < e.ksi / nk := Nat.div_pos h.started hn
      obtain ⟨q, hq⟩ : ∃ q, e.ksi / nk = q + 1 := ⟨e.ksi / nk - 1, by omega⟩
      rw [hq, roundConst]
    · rename_i h0
      rw [h.constant]; apply congrArg; apply congrArg (· + 1)
      have hl := h.started
      obtain ⟨k, hk'⟩ : ∃ k, e.ksi = k + 1 := ⟨e.ksi - 1, by omega⟩
      rw [hk'] at h0 ⊢
      rw [Nat.add_sub_cancel, Nat.add_sub_cancel, Nat.succ_div]
      rw [if_neg (fun hd => h0 (Nat.mod_eq_zero_of_dvd hd)), Nat.add_zero]
  · intro i hi hlt h60
    simp only [expandStep, ksWord_set] at hlt ⊢
    by_cases hc : e.ksi = i
    · subst hc
      have e1 : ¬ (e.ksi = e.ksi - nk ∧ e.ksi - nk < 60) := by omega
      have e2 : ¬ (e.ksi = e.ksi - 1 ∧ e.ksi - 1 < 60) := by omega
      simp only [e1, e2, hk, and_self, if_true, if_false]
      apply congrArg
      simp only [expandTemp]
      by_cases h0 : e.ksi % nk = 0
      · rw [if_pos h0, if_pos h0, h.constant_used hn h0]
      · rw [if_neg h0, if_neg h0]
    · have e1 : ¬ (e.ksi = i - nk ∧ i - nk < 60) := by omega
      have e2 : ¬ (e.ksi = i - 1 ∧ i - 1 < 60) := by omega
      simp only [e1, e2, hc, false_and, if_false]
      exact h.recurrence i hi (by omega) h60
  · intro i hi
    simp only [expandStep, ksWord_set] at hi ⊢
    rw [if_neg (by omega)]
    exact h.rest i (by omega)

/-- The whole loop: the invariant holds after it, it made `n` words, and it changed none made before. -/
theorem expanderInv_loop (nk : Nat) (hn : 0 < nk) : ∀ n e, ExpanderInv nk e → e.ksi + n ≤ 60 →
    ExpanderInv nk (expandLoop nk n e) ∧ (expandLoop nk n e).ksi = e.ksi + n
      ∧ ∀ i, i < e.ksi → ksWord (expandLoop nk n e).w i = ksWord e.w i := by
  intro n
  induction n with
  | zero => intro e h _; exact ⟨h, rfl, fun _ _ => rfl⟩
  | succ n ih =>
    intro e h hk
    obtain ⟨a, b, c⟩ := ih (expandStep nk e) (expanderInv_step nk hn e h (by omega)) (by simp [expandStep]; omega)
    refine ⟨a, ?_, ?_⟩
    · rw [expandLoop, b]; simp only [expandStep]; omega
    · intro i hi
      rw [expandLoop, c i (by simp [expandStep]; omega)]
      simp only [expandStep, ksWord_set]
      rw [if_neg (by omega)]

/-- A `KEYBITS` value requests a variant exactly when it is 32 times its `Nk` (R3, R85). -/
theorem requestedVariant_eq_some {kb : BitVec 9} {v : Variant} :
    requestedVariant kb = some v ↔ kb.toNat = 32 * v.keyWords.val := by
  revert kb v
  intro kb v
  constructor
  · intro h
    unfold requestedVariant at h
    split at h
    · cases h; simpa [Variant.keyWords]
    · split at h
      · cases h; simpa [Variant.keyWords]
      · split at h
        · cases h; simpa [Variant.keyWords]
        · cases h
  · intro h
    cases v <;> simp [Variant.keyWords] at h <;> simp [requestedVariant, h]

/-- A `KEYBITS` value requests nothing exactly when it is none of the three legal sizes (R85). -/
theorem requestedVariant_eq_none {kb : BitVec 9} :
    requestedVariant kb = none ↔ kb ≠ 128#9 ∧ kb ≠ 192#9 ∧ kb ≠ 256#9 := by
  revert kb; decide +kernel

end Sys2Proof.Machine
end

