-- ==== Sys2Proof/Laws/PerInstr.lean ====
section
/-! SUPPORT. The family `EncodeFields`, one lemma per command: its word sets no reserved bit and holds its operation and
both operand fields (30_encoding.md R81). -/

namespace Sys2Proof.Laws.EncodeFields

open Sys2Proof

/-- What the word of a command holds (R81). -/
def Statement (i : Instr) : Prop :=
  encode i &&& reservedMask = 0#32 ∧ opField (encode i) = i.op ∧ lenField (encode i) = i.len
    ∧ keybitsField (encode i) = i.keybits

/-- The four facts hold of every command, for one reason: packing keeps the fields apart. -/
theorem of_packWord (i : Instr) : Statement i :=
  ⟨packWord_reserved _ _ _, opField_packWord _ _ _, lenField_packWord _ _ _, keybitsField_packWord _ _ _⟩

theorem nop (len : BitVec 6) (keybits : BitVec 9) : Statement (.nop len keybits) := of_packWord _

theorem init (len : BitVec 6) (keybits : BitVec 9) : Statement (.init len keybits) := of_packWord _

theorem ecbEnc (len : BitVec 6) (keybits : BitVec 9) : Statement (.ecbEnc len keybits) := of_packWord _

theorem ecbDec (len : BitVec 6) (keybits : BitVec 9) : Statement (.ecbDec len keybits) := of_packWord _

theorem encStart (len : BitVec 6) (keybits : BitVec 9) : Statement (.encStart len keybits) := of_packWord _

theorem encBlock (len : BitVec 6) (keybits : BitVec 9) : Statement (.encBlock len keybits) := of_packWord _

theorem encFinal (len : BitVec 6) (keybits : BitVec 9) : Statement (.encFinal len keybits) := of_packWord _

theorem decStart (len : BitVec 6) (keybits : BitVec 9) : Statement (.decStart len keybits) := of_packWord _

theorem decBlock (len : BitVec 6) (keybits : BitVec 9) : Statement (.decBlock len keybits) := of_packWord _

theorem decFinal (len : BitVec 6) (keybits : BitVec 9) : Statement (.decFinal len keybits) := of_packWord _

theorem reset (len : BitVec 6) (keybits : BitVec 9) : Statement (.reset len keybits) := of_packWord _

end Sys2Proof.Laws.EncodeFields
end

