-- ==== Sys2Proof/Laws/Port.lean ====
section
/-! SUPPORT. The host port: which index names which register, what a step does with each access, and that the core
never looks at the host's side of the state (44_control.md R243 to R246). -/

namespace Sys2Proof.Machine

/-! ### The register map (R21) -/

theorem portReg_eq_ctrl {i : Index} : portReg i = .ctrl ↔ i = 0#7 := by revert i; decide +kernel

theorem portReg_eq_status {i : Index} : portReg i = .status ↔ i = 1#7 := by revert i; decide +kernel

theorem portReg_eq_key {i : Index} {j : Fin 8} : portReg i = .key j ↔ i.toNat = 0x04 + j.val := by
  revert i j; decide +kernel

theorem portReg_eq_iv {i : Index} {j : Fin 4} : portReg i = .iv j ↔ i.toNat = 0x0C + j.val := by
  revert i j; decide +kernel

theorem portReg_eq_din {i : Index} {j : Fin 4} : portReg i = .din j ↔ i.toNat = 0x10 + j.val := by
  revert i j; decide +kernel

theorem portReg_eq_dout {i : Index} {j : Fin 4} : portReg i = .dout j ↔ i.toNat = 0x14 + j.val := by
  revert i j; decide +kernel

theorem portReg_eq_cv {i : Index} {j : Fin 4} : portReg i = .cv j ↔ i.toNat = 0x18 + j.val := by
  revert i j; decide +kernel

theorem portReg_eq_ks {i : Index} {k : Fin 60} : portReg i = .ks k ↔ i.toNat = 0x40 + k.val := by
  revert i k; decide +kernel

theorem portReg_eq_reserved {i : Index} : portReg i = .reserved ↔
    i.toNat = 0x02 ∨ i.toNat = 0x03 ∨ (0x1C ≤ i.toNat ∧ i.toNat ≤ 0x3F) ∨ 0x7C ≤ i.toNat := by
  revert i; decide +kernel

/-! ### A step -/

theorem step_nil {s : State} (h : s.pending = []) : step s = .next s := by
  unfold step; rw [h]

theorem step_cons {s : State} {a : Access} {rest : List Access} (h : s.pending = a :: rest) :
    step s = access a { s with pending := rest } := by
  unfold step; rw [h]

theorem access_read {s : State} (hb : s.busy = false) (i : Index) :
    access (.read i) s = .next { s with replies := hostRead i s :: s.replies } := by
  unfold access; rw [if_neg (by simp [hb])]

theorem access_write {s : State} (hb : s.busy = false) (i : Index) (v : Word) :
    access (.write i v) s = hostWrite i v s := by
  unfold access; rw [if_neg (by simp [hb])]

theorem access_hardwareReset (s : State) : access .hardwareReset s = .next s.toReset := by
  unfold access; rw [if_neg (by simp [allowedWhileBusy])]

theorem hostWrite_ctrl (v : Word) (s : State) : hostWrite 0#7 v s = perform v s := by
  unfold hostWrite; rw [portReg_eq_ctrl.mpr rfl]

theorem hostWrite_key {i : Index} {j : Fin 8} (h : i.toNat = 0x04 + j.val) (v : Word) (s : State) :
    hostWrite i v s = .next { s with keybuf := s.keybuf.set j v } := by
  unfold hostWrite; rw [portReg_eq_key.mpr h]

theorem hostWrite_iv {i : Index} {j : Fin 4} (h : i.toNat = 0x0C + j.val) (v : Word) (s : State) :
    hostWrite i v s = .next { s with iv := s.iv.set j v } := by
  unfold hostWrite; rw [portReg_eq_iv.mpr h]

theorem hostWrite_din {i : Index} {j : Fin 4} (h : i.toNat = 0x10 + j.val) (v : Word) (s : State) :
    hostWrite i v s = .next { s with din := s.din.set j v } := by
  unfold hostWrite; rw [portReg_eq_din.mpr h]

theorem perform_ok {w : Word} {i : Instr} (h : decode w = .ok i) (s : State) : perform w s = exec i s := by
  unfold perform; rw [h]

theorem perform_error {w : Word} {e : DecodeError} (h : decode w = .error e) (s : State) :
    perform w s = .next (s.fail .illegalCommand) := by
  unfold perform; rw [h]

/-- Everything a host write can do (R244). -/
theorem hostWrite_cases {i : Index} {v : Word} {s t : State} (h : hostWrite i v s = .next t) :
    (i = 0#7 ∧ perform v s = .next t)
    ∨ (∃ j : Fin 8, i.toNat = 0x04 + j.val ∧ t = { s with keybuf := s.keybuf.set j v })
    ∨ (∃ j : Fin 4, i.toNat = 0x0C + j.val ∧ t = { s with iv := s.iv.set j v })
    ∨ (∃ j : Fin 4, i.toNat = 0x10 + j.val ∧ t = { s with din := s.din.set j v })
    ∨ (((0x01 ≤ i.toNat ∧ i.toNat ≤ 0x03) ∨ 0x14 ≤ i.toNat) ∧ t = s) := by
  unfold hostWrite at h
  split at h <;> rename_i hp
  · exact .inl ⟨portReg_eq_ctrl.mp hp, h⟩
  · injection h with h; exact .inr (.inl ⟨_, portReg_eq_key.mp hp, h.symm⟩)
  · injection h with h; exact .inr (.inr (.inl ⟨_, portReg_eq_iv.mp hp, h.symm⟩))
  · injection h with h; exact .inr (.inr (.inr (.inl ⟨_, portReg_eq_din.mp hp, h.symm⟩)))
  all_goals
    injection h with h
    refine .inr (.inr (.inr (.inr ⟨?_, h.symm⟩)))
  · have := portReg_eq_status.mp hp; subst this; left; decide
  · have := portReg_eq_dout.mp hp; omega
  · have := portReg_eq_cv.mp hp; omega
  · have := portReg_eq_ks.mp hp; omega
  · have := portReg_eq_reserved.mp hp; omega

/-! ### The core does not look at the host's side -/

/-- `DEC_FINAL` does the same whatever is pending and has been answered, and leaves both as they are. -/
theorem execDecFinal_host {len : BitVec 6} {s t : State} (h : execDecFinal len s = .next t) (p : List Access)
    (r : List Word) :
    execDecFinal len { s with pending := p, replies := r } = .next { t with pending := p, replies := r } := by
  unfold execDecFinal at h ⊢
  dsimp only [inputBlock] at h ⊢
  by_cases c1 : 16 < len.toNat
  · rw [if_pos c1] at h ⊢; injection h with h; subst h; rfl
  rw [if_neg c1] at h ⊢
  by_cases c2 : s.ksValid = false
  · rw [if_pos c2] at h ⊢; injection h with h; subst h; rfl
  rw [if_neg c2] at h ⊢
  by_cases c3 : s.stream ≠ .decRun
  · rw [if_pos c3] at h ⊢; injection h with h; subst h; rfl
  rw [if_neg c3] at h ⊢
  by_cases c4 : len.toNat < 16
  · rw [if_pos c4] at h ⊢; injection h with h; subst h; rfl
  rw [if_neg c4] at h ⊢
  generalize invCipher s.ks s.nr.val (wordsBlock s.din) = o at h ⊢
  generalize xorBlock o s.cv = b at h ⊢
  by_cases c5 : padValid b = true
  · rw [if_pos c5] at h ⊢; injection h with h; subst h; rfl
  · rw [if_neg c5] at h ⊢; injection h with h; subst h; rfl

/-- A command does the same whatever is pending and has been answered, and leaves both as they are. -/
theorem exec_host {i : Instr} {s t : State} (h : exec i s = .next t) (p : List Access) (r : List Word) :
    exec i { s with pending := p, replies := r } = .next { t with pending := p, replies := r } := by
  revert h
  cases i
  case decFinal len kb => exact fun h => execDecFinal_host h p r
  all_goals simp only [exec, execNop, execInit, execEcbEnc, execEcbDec, execEncStart, execEncBlock, execEncFinal,
    execDecStart, execDecBlock, execReset, inputBlock, ivBlock]
  all_goals repeat' split
  all_goals (intro h; injection h with h; subst h; rfl)

/-- A host write does the same whatever is pending and has been answered, and leaves both as they are. -/
theorem hostWrite_host {i : Index} {v : Word} {s t : State} (h : hostWrite i v s = .next t) (p : List Access)
    (r : List Word) :
    hostWrite i v { s with pending := p, replies := r } = .next { t with pending := p, replies := r } := by
  unfold hostWrite at h ⊢
  split at h
  · unfold perform at h ⊢
    split at h
    · exact exec_host h p r
    · injection h with h; subst h; rfl
  all_goals (injection h with h; subst h; rfl)

/-- What a read returns depends on neither. -/
theorem hostRead_host (i : Index) (s : State) (p : List Access) (r : List Word) :
    hostRead i { s with pending := p, replies := r } = hostRead i s := by
  unfold hostRead; split <;> rfl

end Sys2Proof.Machine
end

