-- ==== Sys2Proof/Laws/Run.lean ====
section
/-! SUPPORT. Runs of the machine (70_reset_and_hazards.md R303): a run with one more access ahead, two runs joined, and
what the pieces of a stream's access sequence do: to the state, to the open stream and to the host's record. -/

namespace Sys2Proof.Machine

/-- A command leaves the host's side as it was. -/
theorem exec_keeps_host {i : Instr} {s t : State} (h : exec i s = .next t) :
    t.pending = s.pending ∧ t.replies = s.replies := by
  have h' := exec_host h s.pending s.replies
  have e : ({ s with pending := s.pending, replies := s.replies } : State) = s := rfl
  rw [e, h] at h'
  injection h' with h'
  rw [h']; exact ⟨rfl, rfl⟩

/-- A host write leaves the host's side as it was. -/
theorem hostWrite_keeps_host {i : Index} {v : Word} {s t : State} (h : hostWrite i v s = .next t) :
    t.pending = s.pending ∧ t.replies = s.replies := by
  have h' := hostWrite_host h s.pending s.replies
  have e : ({ s with pending := s.pending, replies := s.replies } : State) = s := rfl
  rw [e, h] at h'
  injection h' with h'
  rw [h']; exact ⟨rfl, rfl⟩

/-- Everything an access can do (R246, R290). -/
theorem access_cases {a : Access} {s t : State} (h : access a s = .next t) :
    (∃ i, a = .read i ∧ t = { s with replies := hostRead i s :: s.replies })
    ∨ (∃ i v, a = .write i v ∧ s.busy = false ∧ hostWrite i v s = .next t)
    ∨ (a = .hardwareReset ∧ t = s.toReset) := by
  unfold access at h
  split at h
  · cases h
  · rename_i hb
    split at h
    · injection h with h; exact .inl ⟨_, rfl, h.symm⟩
    · refine .inr (.inl ⟨_, _, rfl, ?_, h⟩)
      by_contra hc
      exact hb ⟨by simpa using hc, rfl⟩
    · injection h with h; exact .inr (.inr ⟨rfl, h.symm⟩)

/-- An access does the same whatever is pending after it, and leaves that as it is. -/
theorem access_pending {a : Access} {s t : State} (h : access a s = .next t) (p : List Access) :
    t.pending = s.pending ∧ access a { s with pending := p } = .next { t with pending := p } := by
  have hc := access_cases h
  unfold access at h ⊢
  have hb : ¬(s.busy = true ∧ allowedWhileBusy a = false) := by
    intro hb; rw [if_pos hb] at h; cases h
  rw [if_neg hb]
  obtain ⟨i, rfl, rfl⟩ | ⟨i, v, rfl, _, hw⟩ | ⟨rfl, rfl⟩ := hc
  · refine ⟨rfl, ?_⟩
    dsimp only
    rw [hostRead_host i s p s.replies]
  · obtain ⟨h1, h2⟩ := hostWrite_keeps_host hw
    have e : ({ t with pending := p, replies := s.replies } : State) = { t with pending := p } := by rw [← h2]
    exact ⟨h1, (hostWrite_host hw p s.replies).trans (congrArg _ e)⟩
  · exact ⟨rfl, rfl⟩

/-! ### Runs -/

/-- A run replaces what was pending. -/
theorem session_pending (as p : List Access) (s : State) : session as { s with pending := p } = session as s := by
  cases as <;> rfl

/-- A run of no accesses. -/
theorem session_nil (s : State) : session [] s = some ({ s with pending := [] }, []) := rfl

/-- One more access at the front of a run. -/
theorem session_cons {a : Access} {as : List Access} {s t : State} (h : access a s = .next t) :
    session (a :: as) s = (session as t).map fun r =>
      (r.1, { before := { s with pending := [] }, access := a, after := { t with pending := [] } } :: r.2) := by
  have hs : step { s with pending := a :: as } = .next { t with pending := as } := by
    rw [step_cons (s := { s with pending := a :: as }) rfl]; exact (access_pending h as).2
  rw [session, hs]
  dsimp only
  rw [session_pending]

/-- A run that has a result began with an access that did. -/
theorem session_cons_some {a : Access} {as : List Access} {s u : State} {ms : List Made}
    (h : session (a :: as) s = some (u, ms)) :
    ∃ t ms', access a s = .next t ∧ session as t = some (u, ms')
      ∧ ms = { before := { s with pending := [] }, access := a, after := { t with pending := [] } } :: ms' := by
  cases hs : step { s with pending := a :: as } with
  | next t =>
    have ha : access a s = .next { t with pending := s.pending } := (access_pending ((step_cons (s := { s with pending := a :: as }) rfl).symm.trans hs) s.pending).2
    refine ⟨{ t with pending := s.pending }, ?_⟩
    rw [session_cons ha] at h
    cases hr : session as { t with pending := s.pending } with
    | none => rw [hr] at h; cases h
    | some r =>
      rw [hr] at h
      injection h with h
      injection h with h1 h2
      exact ⟨r.2, ha, by rw [← h1], h2.symm⟩
  | fault f => rw [session, hs] at h; cases h
  | refused f => rw [session, hs] at h; cases h

/-- Two access sequences, one after the other. -/
theorem session_append {as bs : List Access} {s u v : State} {ms ns : List Made}
    (h : session as s = some (u, ms)) (h' : session bs u = some (v, ns)) :
    session (as ++ bs) s = some (v, ms ++ ns) := by
  induction as generalizing s ms with
  | nil =>
    injection h with h
    injection h with h1 h2
    subst h1 h2
    rw [session_pending] at h'
    exact h'
  | cons a as ih =>
    obtain ⟨t, ms', ha, hr, rfl⟩ := session_cons_some h
    rw [List.cons_append, session_cons ha, ih hr]
    rfl

/-! ### Quiet accesses: reads, and writes that are no command -/

/-- An access that is no command and no reset. -/
def Made.quiet (m : Made) : Prop := isCommand m.access = false ∧ m.access ≠ .hardwareReset

/-- An access that is no command issues nothing. -/
theorem issued_of_not_command {a : Access} (h : isCommand a = false) : issued a = none := by
  unfold isCommand at h
  unfold issued
  split at h
  · rfl
  · rfl
  · rename_i i w
    by_cases hp : portReg i = .ctrl
    · simp only [hp, decide_true, Bool.true_and, if_true] at h ⊢
      split at h
      · rename_i hd; rw [hd]
      · cases h
    · simp only [if_neg hp]

theorem standing_eq_normally {t : State} : standing t = .normally ↔ t.stream = .done ∧ t.err = .none := by
  unfold standing; split <;> simp_all

theorem standing_eq_failed {t : State} {code : ErrCode} :
    standing t = .failed code ↔ t.stream = .failed ∧ t.err = code := by
  unfold standing; split <;> simp_all

theorem standing_ne_replaced (t : State) : standing t ≠ .replaced := by
  unfold standing; split <;> simp

/-- A `START` takes `STREAM` from any stream before it. -/
theorem Made.replaces_of_opens {m : Made} {k : StreamKind} (h : m.opens = some k) : m.replaces = true := by
  unfold Made.replaces; split <;> first | rfl | simp [h]

theorem Made.quiet.opens {m : Made} (h : m.quiet) : m.opens = none := by
  unfold Made.opens; rw [issued_of_not_command h.1]

theorem Made.quiet.closing {m : Made} (h : m.quiet) : m.closing = standing m.after := by
  have hr : m.replaces = false := by
    unfold Made.replaces
    rw [issued_of_not_command h.1, h.opens]
    split
    · rename_i ha; exact absurd ha h.2
    · rename_i hi _; cases hi
    · rename_i hi _; cases hi
    · rfl
  unfold Made.closing
  rw [hr]
  split <;> rename_i he <;> simp [he]

/-- What the one open stream comes to over the accesses `ms`: the output `out`, and how it stands. -/
def Extends (ms : List Made) (out : List Byte) (e : StreamEnd) : Prop :=
  ∀ r : StreamRun, r.ending = .notEnded →
    ∃ r', ms.foldl followStreams [r] = [r'] ∧ r'.kind = r.kind ∧ r'.output = r.output ++ out ∧ r'.ending = e

/-- Accesses that go on while the stream is open. -/
theorem Extends.append {ms ns : List Made} {o p : List Byte} {e : StreamEnd} (h : Extends ms o .notEnded)
    (h' : Extends ns p e) : Extends (ms ++ ns) (o ++ p) e := by
  intro r hr
  obtain ⟨r1, e1, k1, o1, n1⟩ := h r hr
  obtain ⟨r2, e2, k2, o2, n2⟩ := h' r1 n1
  exact ⟨r2, by rw [List.foldl_append, e1, e2], k2.trans k1, by rw [o2, o1, List.append_assoc], n2⟩

/-- A stream that has ended takes no quiet access. -/
theorem follow_quiet_ended {ms : List Made} (hq : ∀ m ∈ ms, m.quiet) (r : StreamRun) (hr : r.ending ≠ .notEnded) :
    ms.foldl followStreams [r] = [r] := by
  induction ms with
  | nil => rfl
  | cons m ms ih =>
    have : followStreams [r] m = [r] := by
      unfold followStreams
      rw [(hq m (by simp)).opens]
      simp [StreamRun.extend, hr]
    rw [List.foldl_cons, this, ih fun m hm => hq m (by simp [hm])]

/-- Quiet accesses while the stream stays open. -/
theorem extends_quiet {ms : List Made} (hq : ∀ m ∈ ms, m.quiet) (hs : ∀ m ∈ ms, standing m.after = .notEnded) :
    Extends ms [] .notEnded := by
  induction ms with
  | nil => exact fun r hr => ⟨r, rfl, rfl, by simp, hr⟩
  | cons m ms ih =>
    intro r hr
    have hm := hq m (by simp)
    have e1 : followStreams [r] m = [r.extend m] := by unfold followStreams; rw [hm.opens]; rfl
    have e2 : (r.extend m).kind = r.kind ∧ (r.extend m).output = r.output ∧ (r.extend m).ending = .notEnded := by
      unfold StreamRun.extend
      rw [if_pos hr, hm.opens, hm.closing, hs m (by simp)]
      simp [Made.output, hm.1]
    obtain ⟨r', f, k, o, n⟩ := ih (fun m hm => hq m (by simp [hm])) (fun m hm => hs m (by simp [hm])) _ e2.2.2
    exact ⟨r', by rw [List.foldl_cons, e1, f], k.trans e2.1, by rw [o, e2.2.1], n⟩

/-- A command that starts no stream and replaces none, and the quiet accesses after it. -/
theorem extends_command {m : Made} {ms : List Made} (ho : m.opens = none) (hr : m.replaces = false)
    (hq : ∀ x ∈ ms, x.quiet) (hs : ∀ x ∈ ms, standing x.after = standing m.after) :
    Extends (m :: ms) m.output (standing m.after) := by
  have hc : m.closing = standing m.after := by
    unfold Made.closing; rw [hr]; split <;> rename_i he <;> simp [he]
  intro r hn
  have e1 : followStreams [r] m = [r.extend m] := by unfold followStreams; rw [ho]; rfl
  have e2 : (r.extend m).kind = r.kind ∧ (r.extend m).output = r.output ++ m.output
      ∧ (r.extend m).ending = standing m.after := by
    unfold StreamRun.extend
    rw [if_pos hn, ho, hc]
    simp
  by_cases h : standing m.after = .notEnded
  · obtain ⟨r', f, k, o, n⟩ := extends_quiet hq (fun x hx => (hs x hx).trans h) (r.extend m) (e2.2.2.trans h)
    exact ⟨r', by rw [List.foldl_cons, e1, f], k.trans e2.1, by rw [o, e2.2.1]; simp, n.trans h.symm⟩
  · refine ⟨r.extend m, ?_, e2⟩
    rw [List.foldl_cons, e1, follow_quiet_ended hq _ (by rw [e2.2.2]; exact h)]

/-- A `START`, from no stream, and the quiet accesses after it. -/
theorem follow_start {m : Made} {ms : List Made} {k : StreamKind} (ho : m.opens = some k) (hq : ∀ x ∈ ms, x.quiet)
    (hs : ∀ x ∈ ms, standing x.after = standing m.after) :
    ∃ r, (m :: ms).foldl followStreams [] = [r] ∧ r.kind = k ∧ r.output = m.output ∧ r.ending = standing m.after := by
  have e1 : followStreams [] m = [StreamRun.start k m] := by unfold followStreams; rw [ho]; rfl
  by_cases h : standing m.after = .notEnded
  · obtain ⟨r, f, k', o, n⟩ := extends_quiet hq (fun x hx => (hs x hx).trans h) (StreamRun.start k m) h
    exact ⟨r, by rw [List.foldl_cons, e1, f], k', by rw [o]; simp [StreamRun.start], n.trans h.symm⟩
  · exact ⟨StreamRun.start k m, by rw [List.foldl_cons, e1, follow_quiet_ended hq _ h], rfl, rfl, rfl⟩

/-- Quiet accesses while no stream has started. -/
theorem follow_quiet_none {ms : List Made} (hq : ∀ m ∈ ms, m.quiet) : ms.foldl followStreams [] = [] := by
  induction ms with
  | nil => rfl
  | cons m ms ih =>
    have : followStreams [] m = [] := by unfold followStreams; rw [(hq m (by simp)).opens]; rfl
    rw [List.foldl_cons, this, ih fun m hm => hq m (by simp [hm])]

/-- From the host's record `r`, the accesses `ms` keep every duty and leave the record `r'`. -/
def Keeps (r : HostRecord) (ms : List Made) (r' : HostRecord) : Prop := ∀ rest, dutiful r (ms ++ rest) = dutiful r' rest

theorem Keeps.append {r r' r'' : HostRecord} {ms ns : List Made} (h : Keeps r ms r') (h' : Keeps r' ns r'') :
    Keeps r (ms ++ ns) r'' := by
  intro rest; rw [List.append_assoc, h, h']

/-- One access that keeps every duty. -/
theorem Keeps.cons {r r'' : HostRecord} {m : Made} {ms : List Made} (hk : ∀ d, r.keeps m d = true)
    (h : Keeps (r.next m) ms r'') : Keeps r (m :: ms) r'' := by
  intro rest
  rw [List.cons_append, dutiful, h]
  simp [HostDuty.all, hk]

theorem Keeps.nil (r : HostRecord) : Keeps r [] r := fun _ => rfl

/-- An access that keeps HD6: `BUSY` is 0 and a poll has shown it, or the access is one that may come before that. -/
def Made.inTurn (m : Made) (r : HostRecord) : Prop :=
  (r.polled = true ∧ m.before.busy = false) ∨ allowedWhileBusy m.access = true

/-- A quiet access made in turn keeps every duty. -/
theorem Made.quiet.keeps {m : Made} (h : m.quiet) {r : HostRecord} (ht : m.inTurn r) (d : HostDuty) :
    r.keeps m d = true := by
  have hi := issued_of_not_command h.1
  cases d <;> simp [HostRecord.keeps, hi, h.1]
  exact ht

/-- An access that is no `CTRL` write leaves a poll as good as it was. -/
theorem HostRecord.next_polled {r : HostRecord} {m : Made} (h : ∀ i w, m.access = .write i w → portReg i ≠ .ctrl)
    (hp : r.polled = true) : (r.next m).polled = true := by
  unfold HostRecord.next
  split
  · rfl
  · split <;> simp [hp]
  · rename_i i w ha
    split
    · exact hp
    · rename_i hc; exact absurd hc (h i w ha)
    · exact hp

/-- An access that is no command and no `CTRL` write, made while `BUSY = 0`. -/
structure Made.calm (m : Made) : Prop where
  quiet : m.quiet
  noCtrl : ∀ i w, m.access = .write i w → portReg i ≠ .ctrl
  idle : m.before.busy = false

/-- Calm accesses after a poll keep every duty. -/
theorem keeps_calm {ms : List Made} {r r' : HostRecord} (h : ∀ m ∈ ms, m.calm) (hp : r.polled = true)
    (hr : ms.foldl HostRecord.next r = r') : Keeps r ms r' := by
  induction ms generalizing r with
  | nil => cases hr; exact Keeps.nil _
  | cons m ms ih =>
    have hm := h m (by simp)
    exact Keeps.cons (hm.quiet.keeps (.inl ⟨hp, hm.idle⟩))
      (ih (fun x hx => h x (by simp [hx])) (HostRecord.next_polled hm.noCtrl hp) hr)

/-- What a sequence of calm accesses is to the open stream and to the host's record. -/
theorem calm_load {ms : List Made} {e : StreamEnd} {f : HostRecord → HostRecord}
    (h : ∀ m ∈ ms, m.calm ∧ standing m.after = e) (hf : ∀ r, ms.foldl HostRecord.next r = f r) :
    (∀ m ∈ ms, m.quiet ∧ standing m.after = e) ∧ ∀ r, r.polled = true → Keeps r ms (f r) :=
  ⟨fun m hm => ⟨(h m hm).1.quiet, (h m hm).2⟩, fun r hp => keeps_calm (fun m hm => (h m hm).1) hp (hf r)⟩

/-! ### The pieces of a stream's access sequence (R91) -/

/-- Writing all four words of a register group replaces it. -/
theorem set_all_words (x w : Vector Word 4) : (((x.set 0 w[0]).set 1 w[1]).set 2 w[2]).set 3 w[3] = w := by
  apply Vector.ext; intro i hi
  interval_cases i <;> simp

theorem calm_read {s : State} (hb : s.busy = false) (t : State) (i : Index) :
    Made.calm { before := s, access := .read i, after := t } :=
  ⟨⟨rfl, fun h => by cases h⟩, fun _ _ h => (by cases h), hb⟩

theorem calm_write {s : State} (hb : s.busy = false) (t : State) {i : Index} (v : Word) (h : portReg i ≠ .ctrl) :
    Made.calm { before := s, access := .write i v, after := t } :=
  ⟨⟨by simp [isCommand, h], fun h => by cases h⟩, fun _ _ e => (by cases e; exact h), hb⟩

/-- `LDIN` puts the block in `DIN` (R91): quiet accesses, after which a new block stands in `DIN`. -/
theorem session_loadDin {s : State} (hb : s.busy = false) (b : Block) :
    ∃ ms, session (loadDin b) s = some ({ s with din := blockWords b, pending := [] }, ms)
      ∧ (∀ m ∈ ms, m.quiet ∧ standing m.after = standing s)
      ∧ ∀ r : HostRecord, r.polled = true → Keeps r ms { r with dinWritten := 3 :: 2 :: 1 :: 0 :: r.dinWritten } := by
  unfold loadDin writeBlock
  rw [session_cons (t := { s with din := s.din.set 0 (blockWords b)[0] })
        (by rw [access_write hb, hostWrite_din (j := 0) rfl]; rfl),
    session_cons (t := { s with din := (s.din.set 0 (blockWords b)[0]).set 1 (blockWords b)[1] })
        (by rw [access_write (by exact hb), hostWrite_din (j := 1) rfl]; rfl),
    session_cons (t := { s with din := ((s.din.set 0 (blockWords b)[0]).set 1 (blockWords b)[1]).set 2 (blockWords b)[2] })
        (by rw [access_write (by exact hb), hostWrite_din (j := 2) rfl]; rfl),
    session_cons (t := { s with din := blockWords b })
        (by rw [access_write (by exact hb), hostWrite_din (j := 3) rfl]
            exact congrArg (fun v => Host.Outcome.next { s with din := v }) (set_all_words s.din (blockWords b))),
    session_nil]
  have q (x y : State) (j : Fin 4) {i : Index} (v : Word) (h : portReg i = .din j) (hx : x.busy = false) :
      Made.calm { before := x, access := .write i v, after := y } := calm_write hx y v (by rw [h]; simp)
  refine ⟨_, rfl, calm_load ?_ fun r => rfl⟩
  intro m hm
  simp only [List.mem_cons, List.not_mem_nil, or_false] at hm
  obtain rfl | rfl | rfl | rfl := hm
  · exact ⟨q _ _ 0 _ rfl hb, rfl⟩
  · exact ⟨q _ _ 1 _ rfl hb, rfl⟩
  · exact ⟨q _ _ 2 _ rfl hb, rfl⟩
  · exact ⟨q _ _ 3 _ rfl hb, rfl⟩

/-- `LDIV` puts the block in `IV` (R91): quiet accesses, of which the host's record shows nothing. -/
theorem session_loadIv {s : State} (hb : s.busy = false) (b : Block) :
    ∃ ms, session (loadIv b) s = some ({ s with iv := blockWords b, pending := [] }, ms)
      ∧ (∀ m ∈ ms, m.quiet ∧ standing m.after = standing s) ∧ ∀ r : HostRecord, r.polled = true → Keeps r ms r := by
  unfold loadIv writeBlock
  rw [session_cons (t := { s with iv := s.iv.set 0 (blockWords b)[0] })
        (by rw [access_write hb, hostWrite_iv (j := 0) rfl]; rfl),
    session_cons (t := { s with iv := (s.iv.set 0 (blockWords b)[0]).set 1 (blockWords b)[1] })
        (by rw [access_write (by exact hb), hostWrite_iv (j := 1) rfl]; rfl),
    session_cons (t := { s with iv := ((s.iv.set 0 (blockWords b)[0]).set 1 (blockWords b)[1]).set 2 (blockWords b)[2] })
        (by rw [access_write (by exact hb), hostWrite_iv (j := 2) rfl]; rfl),
    session_cons (t := { s with iv := blockWords b })
        (by rw [access_write (by exact hb), hostWrite_iv (j := 3) rfl]
            exact congrArg (fun v => Host.Outcome.next { s with iv := v }) (set_all_words s.iv (blockWords b))),
    session_nil]
  have q (x y : State) (j : Fin 4) {i : Index} (v : Word) (h : portReg i = .iv j) (hx : x.busy = false) :
      Made.calm { before := x, access := .write i v, after := y } := calm_write hx y v (by rw [h]; simp)
  refine ⟨_, rfl, calm_load ?_ fun r => rfl⟩
  intro m hm
  simp only [List.mem_cons, List.not_mem_nil, or_false] at hm
  obtain rfl | rfl | rfl | rfl := hm
  · exact ⟨q _ _ 0 _ rfl hb, rfl⟩
  · exact ⟨q _ _ 1 _ rfl hb, rfl⟩
  · exact ⟨q _ _ 2 _ rfl hb, rfl⟩
  · exact ⟨q _ _ 3 _ rfl hb, rfl⟩

/-- Reads are calm accesses, and the host's record shows which registers were read. -/
theorem session_reads {s : State} (hb : s.busy = false) (is : List Index) :
    ∃ x ms, session (is.map .read) s = some ({ s with pending := [], replies := x }, ms)
      ∧ (∀ m ∈ ms, m.calm ∧ standing m.after = standing s)
      ∧ ∀ r : HostRecord, ms.foldl HostRecord.next r
          = is.foldl (fun r i => r.next { before := s, access := .read i, after := s }) r := by
  induction is generalizing s with
  | nil => exact ⟨s.replies, [], rfl, by simp, fun r => rfl⟩
  | cons i is ih =>
    obtain ⟨x, ms, h, hq, hf⟩ := ih (s := { s with replies := hostRead i s :: s.replies }) hb
    refine ⟨x, _, by rw [List.map_cons, session_cons (access_read hb i), h]; rfl, ?_, ?_⟩
    · intro m hm
      obtain rfl | hm := List.mem_cons.mp hm
      · exact ⟨calm_read (s := { s with pending := [] }) hb _ _, rfl⟩
      · exact hq m hm
    · exact fun r => hf _

/-- The record after a command's word has been written and `STATUS` and all of `DOUT` read. -/
def HostRecord.afterIssue (r : HostRecord) (m : Made) : HostRecord :=
  { r.afterCommand m with keyChecked := true, statusRead := true, doutRead := [3, 2, 1, 0], polled := true }

/-- What a write of a legal word to `CTRL` issues. -/
theorem issued_ok {w : Word} {i : Instr} (hd : decode w = .ok i) (hn : ∀ l k, i ≠ .nop l k) :
    isCommand (.write 0#7 w) = true ∧ issued (.write 0#7 w) = some i := by
  unfold isCommand issued
  dsimp only
  rw [hd]
  cases i <;> first | exact ⟨rfl, rfl⟩ | exact absurd rfl (hn _ _)

theorem issued_nop {w : Word} {l : BitVec 6} {k : BitVec 9} (hd : decode w = .ok (.nop l k)) :
    isCommand (.write 0#7 w) = false ∧ issued (.write 0#7 w) = none := by
  unfold isCommand issued
  dsimp only
  rw [hd]
  exact ⟨rfl, rfl⟩

theorem issued_error {w : Word} {e : DecodeError} (hd : decode w = .error e) :
    isCommand (.write 0#7 w) = true ∧ issued (.write 0#7 w) = none := by
  unfold isCommand issued
  dsimp only
  rw [hd]
  exact ⟨rfl, rfl⟩

/-- The record after a write to `CTRL` that is a command. -/
theorem HostRecord.next_command {r : HostRecord} {m : Made} {w : Word} (h : isCommand (.write 0#7 w) = true)
    (ha : m.access = .write 0#7 w := by rfl) :
    r.next m = { r.afterCommand m with statusRead := false, doutRead := [], polled := false } := by
  unfold HostRecord.next
  rw [ha]
  dsimp only
  rw [portReg_eq_ctrl.mpr rfl]
  dsimp only
  rw [h, if_pos rfl]

/-- The record after a read of `STATUS` that shows `BUSY = 0`. -/
theorem HostRecord.next_status {r : HostRecord} {s t : State} (hb : s.busy = false) :
    r.next { before := s, access := .read 0x01#7, after := t }
      = { r with keyChecked := true, statusRead := true, polled := true } := by
  show ({ r with keyChecked := true, statusRead := true, polled := r.polled || !s.busy } : HostRecord) = _
  rw [hb]; simp

/-- A command and the reads after it (R91): the state is the command's. -/
theorem session_issue {i : Instr} {s t : State} (hb : s.busy = false) (hd : decode (encode i) = .ok i)
    (hn : ∀ l k, i ≠ .nop l k) (h : exec i s = .next t) (ht : t.busy = false) :
    ∃ x m ms, session (issue i) s = some ({ t with pending := [], replies := x }, m :: ms)
      ∧ m = { before := { s with pending := [] }, access := .write 0#7 (encode i), after := { t with pending := [] } }
      ∧ (∀ x ∈ ms, x.quiet ∧ standing x.after = standing m.after)
      ∧ ∀ r : HostRecord, (∀ d, r.keeps m d = true) → Keeps r (m :: ms) (r.afterIssue m) := by
  unfold issue
  have ha : access (.write 0#7 (encode i)) s = .next t := by
    rw [access_write hb, hostWrite_ctrl, perform_ok hd, h]
  have ha' := access_read ht 0x01#7
  obtain ⟨x, ms, hs, hq, hf⟩ := session_reads (s := { t with replies := hostRead 0x01#7 t :: t.replies }) ht
    [0x14#7, 0x15#7, 0x16#7, 0x17#7]
  rw [show (0x00#7 : Index) = 0#7 from rfl, session_cons ha, session_cons ha']
  have hp := calm_read (s := { t with pending := [] }) ht
    { t with pending := [], replies := hostRead 0x01#7 t :: t.replies } 0x01#7
  refine ⟨x, _, _ :: ms, congrArg (Option.map _) (congrArg (Option.map _) hs), rfl, ?_, fun r hk => ?_⟩
  · intro y hy
    obtain rfl | hy := List.mem_cons.mp hy
    · exact ⟨hp.quiet, rfl⟩
    · exact ⟨(hq y hy).1.quiet, (hq y hy).2⟩
  · refine Keeps.cons hk (Keeps.cons (hp.quiet.keeps (.inr rfl)) ?_)
    rw [HostRecord.next_status (s := { t with pending := [] }) ht, HostRecord.next_command (issued_ok hd hn).1]
    refine keeps_calm (fun y hy => (hq y hy).1) rfl ?_
    rw [hf]
    rfl

/-- `LDIN`, a command and the reads after it: the state is the command's; the first accesses are quiet. -/
theorem session_block {i : Instr} {s t : State} (b : Block) (hb : s.busy = false) (hd : decode (encode i) = .ok i)
    (hn : ∀ l k, i ≠ .nop l k) (h : exec i { s with din := blockWords b } = .next t) (ht : t.busy = false) :
    ∃ x ls m ms, session (loadDin b ++ issue i) s = some ({ t with pending := [], replies := x }, ls ++ m :: ms)
      ∧ m = { before := { s with din := blockWords b, pending := [] }, access := .write 0#7 (encode i),
              after := { t with pending := [] } }
      ∧ (∀ l ∈ ls, l.quiet ∧ standing l.after = standing s)
      ∧ (∀ x ∈ ms, x.quiet ∧ standing x.after = standing m.after)
      ∧ ∀ r : HostRecord, r.polled = true →
        (∀ d, ({ r with dinWritten := 3 :: 2 :: 1 :: 0 :: r.dinWritten } : HostRecord).keeps m d = true) →
        Keeps r (ls ++ m :: ms)
          (({ r with dinWritten := 3 :: 2 :: 1 :: 0 :: r.dinWritten } : HostRecord).afterIssue m) := by
  have h2 : exec i { s with din := blockWords b, pending := [] }
      = .next { t with pending := [], replies := t.replies } := by
    rw [(exec_keeps_host h).2]; exact exec_host h [] s.replies
  obtain ⟨ls, h1, hl, hk⟩ := session_loadDin hb b
  obtain ⟨x, m, ms, h3, hm, hq, hi⟩ := session_issue (s := { s with din := blockWords b, pending := [] }) hb hd hn h2 ht
  exact ⟨x, ls, m, ms, session_append h1 h3, hm, hl, hq, fun r hp hr => (hk r hp).append (hi _ hr)⟩

end Sys2Proof.Machine
end

