-- ==== Sys2Proof/Tests/Slice0.lean ====
section
/-! SUPPORT. The model's own tests. Every expected value is one the spec prints (95_test_vectors.md V1 to V53, and
the rule a test names), never one this model computed. Most tests make one step that runs one command word. -/

namespace Sys2Proof.Tests

set_option Elab.async false

open Sys2Proof Sys2Proof.Machine

/-! ### Building a state and reading a result -/

/-- A block from its 32 hexadecimal digits, byte 0 first. -/
def blk (n : Nat) : Block := Vector.ofFn fun i => BitVec.ofNat 8 (n >>> (8 * (15 - i.val)))

/-- A register group from its 32 hexadecimal digits. -/
def regs (n : Nat) : Vector Word 4 := Vector.ofFn fun j => BitVec.ofNat 32 (n >>> (32 * (3 - j.val)))

/-- `KEYBUF` from the 64 hexadecimal digits of 32 key bytes. -/
def keyRegs (n : Nat) : Vector Word 8 := Vector.ofFn fun j => BitVec.ofNat 32 (n >>> (32 * (7 - j.val)))

/-- Reset with the key bytes `000102...1f` in `KEYBUF`. -/
def countKey : State :=
  { State.reset with keybuf := keyRegs 0x000102030405060708090a0b0c0d0e0f101112131415161718191a1b1c1d1e1f }

/-- After `INIT` of the first bytes of `000102...1f`. -/
def keyed (v : Variant) : State := countKey.loadKey v

/-- After `INIT` of the AES-128 key `2b7e151628aed2a6abf7158809cf4f3c`. -/
def nist : State :=
  { State.reset with
    keybuf := keyRegs 0x2b7e151628aed2a6abf7158809cf4f3c00000000000000000000000000000000 }.loadKey .aes128

/-- The IV `000102...0f`. -/
def iv0 : Block := blk 0x000102030405060708090a0b0c0d0e0f

/-- `s` with a stream open, `CV` and `DIN` as given. -/
def inStream (s : State) (st : StreamState) (cv : Block) (din : Nat) : State :=
  { s with stream := st, cv := cv, din := regs din }

/-- What the host sees after the next step runs the command word `w`: `STATUS`, `DOUT` and `CV`. -/
def after (s : State) (w : Nat) : Option (Word × Block × Block) :=
  match step (s.withFetchWord 32 w) with
  | .next t => some (status t, wordsBlock t.dout, t.cv)
  | .fault _ => none
  | .refused _ => none

/-- `STATUS` and two words of the key schedule as the host reads them, after the next step runs the command word `w`. -/
def keyAfter (s : State) (w : Nat) (i j : Index) : Option (Word × Word × Word) :=
  match step (s.withFetchWord 32 w) with
  | .next t => some (status t, hostRead i t, hostRead j t)
  | .fault _ => none
  | .refused _ => none

/-- Whether an outcome is a next state of which `p` holds. -/
def nextHolds (p : State → Bool) (o : Host.Outcome State Fault Refusal) : Bool :=
  match o with
  | .next t => p t
  | .fault _ => false
  | .refused _ => false

theorem exists_of_nextHolds {p : State → Bool} {o : Host.Outcome State Fault Refusal} (h : nextHolds p o = true) :
    ∃ t, o = .next t ∧ p t = true := by
  cases o with
  | next t => exact ⟨t, rfl, h⟩
  | fault _ => cases h
  | refused _ => cases h

/-! ### WellFormed: an ill-formed term for each check (30_encoding.md R84) -/

theorem test_wellFormed_init : (Instr.init 33 128).wellFormed = false ∧ (Instr.init 32 511).wellFormed = true := by decide

theorem test_wellFormed_encFinal : (Instr.encFinal 16 0).wellFormed = false ∧ (Instr.encFinal 15 0).wellFormed = true := by
  decide

theorem test_wellFormed_decStart : (Instr.decStart 17 0).wellFormed = false ∧ (Instr.decStart 16 0).wellFormed = true := by
  decide

theorem test_wellFormed_decFinal : (Instr.decFinal 17 0).wellFormed = false ∧ (Instr.decFinal 0 0).wellFormed = true := by
  decide

/-! ### Decoding: words written out by the spec (R92, V50, and the fields of R81) -/

theorem test_decode_nop : decodeTableWord 32 0x013F3F00 = some (.nop 63 319) := by decide
theorem test_decode_init : decodeTableWord 32 0x00C01801 = some (.init 24 192) := by decide
theorem test_decode_ecbEnc : decodeTableWord 32 0x01FF3F02 = some (.ecbEnc 63 511) := by decide
theorem test_decode_ecbDec : decodeTableWord 32 0x00000003 = some (.ecbDec 0 0) := by decide
theorem test_decode_encStart : decodeTableWord 32 0x00000004 = some (.encStart 0 0) := by decide
theorem test_decode_encBlock : decodeTableWord 32 0x00000005 = some (.encBlock 0 0) := by decide
theorem test_decode_encFinal : decodeTableWord 32 0x00000D06 = some (.encFinal 13 0) := by decide
theorem test_decode_decStart : decodeTableWord 32 0x00001007 = some (.decStart 16 0) := by decide
theorem test_decode_decBlock : decodeTableWord 32 0x00000008 = some (.decBlock 0 0) := by decide
theorem test_decode_decFinal : decodeTableWord 32 0x00000A09 = some (.decFinal 10 0) := by decide
theorem test_decode_reset : decodeTableWord 32 0x0000000F = some (.reset 0 0) := by decide

/-- V50: every reserved bit group, and both ends of the reserved operations. -/
theorem test_decode_rejects :
    [0x00000010, 0x00000080, 0x00004000, 0x00008000, 0x02000000, 0x80000000, 0x0000001F, 0x0000000A, 0x0000000E].map
      (decodeTableWord 32) = List.replicate 9 none := by decide

/-- R81: one word packed by hand, `OP = 6`, `LEN = 13`. -/
theorem test_encode_encFinal : encode (.encFinal 13 0) = 0x00000D06#32 := by decide

/-! ### The units -/

/-- V8a. -/
theorem test_gmul : gmul 0x57 0x83 = 0xC1#8 ∧ gmul 0x0E 0x5A = 0x21#8 ∧ gmul 0xFF 0xFF = 0x13#8 := by decide +kernel

/-- V3. -/
theorem test_sbox : sbox 0x53 = 0xED#8 ∧ invSbox 0x01 = 0x09#8 ∧ sbox 0xFF = 0x16#8 ∧ invSbox 0xFF = 0x7D#8 := by
  decide +kernel

/-- V20. -/
theorem test_rowShifts : shiftRows iv0 = blk 0x00050a0f04090e03080d02070c01060b
    ∧ invShiftRows iv0 = blk 0x000d0a0704010e0b0805020f0c090603 := by decide +kernel

/-- V23, round 1: each primitive by itself. -/
theorem test_firstRound :
    subBytes (blk 0x00102030405060708090a0b0c0d0e0f0) = blk 0x63cab7040953d051cd60e0e7ba70e18c
    ∧ mixColumns (blk 0x6353e08c0960e104cd70b751bacad0e7) = blk 0x5f72641557f5bc92f7be3b291db9f91a
    ∧ addRoundKey (keyed .aes128).ks 1 (blk 0x5f72641557f5bc92f7be3b291db9f91a)
      = blk 0x89d810e8855ace682d1843d8cb128fe4 := by decide +kernel

/-- V9. -/
theorem test_padding : pad iv0 13 = blk 0x000102030405060708090a0b0c030303
    ∧ padValid (blk 0x000102030405060708090a0b0c030302) = false
    ∧ padValid (blk 0x0f101010101010101010101010101010) = false
    ∧ padValid (blk 0x000102030405060708090a0b02030303) = true := by decide +kernel

/-! ### The commands -/

/-- R241 (example): `NOP` with operand fields set leaves the failure visible. -/
theorem test_nop : (after { keyed .aes128 with stream := .failed, err := .streamTruncated } 0x013F3F00).map (·.1)
    = some 0x002C0312#32 := by decide +kernel

/-- V10: `KS4` and `KS43` of the AES-128 schedule. -/
theorem test_init_aes128 : keyAfter countKey 0x00801001 0x44 0x6B = some (0x002C0002#32, 0xD6AA74FD#32, 0x4D2B30C5#32) := by
  decide +kernel

/-- V16, V2: an AES-256 schedule reaches `KS59`. -/
theorem test_init_aes256 : keyAfter countKey 0x01002001 0x44 0x7B = some (0x003C0002#32, 0x10111213#32, 0x6D68DE36#32) := by
  decide +kernel

/-- V15: a short key clears the schedule. -/
theorem test_init_short : keyAfter (keyed .aes128) 0x00800F01 0x44 0x40 = some (0x00000100#32, 0#32, 0#32) := by decide +kernel

/-- V24, AES-192. -/
theorem test_ecbEnc : (after { keyed .aes192 with din := regs 0x00112233445566778899aabbccddeeff } 0x00000002).map (·.2.1)
    = some (blk 0xdda97ca4864cdfe06eaf70a0ec0d7191) := by decide +kernel

/-- V26. -/
theorem test_ecbEnc_noKey : (after State.reset 0x00000002).map (·.1) = some 0x00000500#32 := by decide +kernel

/-- V24, AES-256. -/
theorem test_ecbDec : (after { keyed .aes256 with din := regs 0x8ea2b7ca516745bfeafc49904b496089 } 0x00000003).map (·.2.1)
    = some (blk 0x00112233445566778899aabbccddeeff) := by decide +kernel

/-- V30. -/
theorem test_encStart : after { nist with iv := regs 0x000102030405060708090a0b0c0d0e0f } 0x00000004
    = some (0x102C0006#32, iv0, iv0) := by decide +kernel

/-- V31, block 1. -/
theorem test_encBlock : after (inStream nist .encRun iv0 0x6bc1bee22e409f96e93d7e117393172a) 0x00000005
    = some (0x102C0006#32, blk 0x7649abac8119b246cee98e9b12e9197d, blk 0x7649abac8119b246cee98e9b12e9197d) := by
  decide +kernel

/-- V37. -/
theorem test_encBlock_badSequence : (after (inStream nist .done iv0 0) 0x00000005).map (·.1) = some 0x002C060E#32 := by
  decide +kernel

/-- V32. -/
theorem test_encFinal : after (inStream nist .encRun iv0 0x000102030405060708090a0b0c000000) 0x00000D06
    = some (0x102C000E#32, blk 0xe5ae9fba2e040e7367740eab455c1db6, blk 0xe5ae9fba2e040e7367740eab455c1db6) := by
  decide +kernel

/-- V39 (the IV there is that of reset, 0): byte 15 of `DIN` does not matter. -/
theorem test_encFinal_len15 : (after (inStream nist .encRun (blk 0) 0x000102030405060708090a0b0c0d0e0f) 0x00000F06).map (·.2.1)
    = some (blk 0xfa67351c1aaaebd4155455b3c34681e9) := by decide +kernel

/-- V32. -/
theorem test_decStart : (after (inStream nist .done (blk 0) 0x000102030405060708090a0b0c0d0e0f) 0x00001007).map
      (fun r => (r.1, r.2.2)) = some (0x002C000A#32, iv0) := by decide +kernel

/-- V38. -/
theorem test_decStart_truncated : (after nist 0x00000A07).map (·.1) = some 0x002C0312#32 := by decide +kernel

/-- V33, block 2. -/
theorem test_decBlock :
    after (inStream nist .decRun (blk 0x7649abac8119b246cee98e9b12e9197d) 0x5086cb9b507219ee95db113a917678b2) 0x00000008
      = some (0x102C000A#32, blk 0xae2d8a571e03ac9c9eb76fac45af8e51, blk 0x5086cb9b507219ee95db113a917678b2) := by
  decide +kernel

/-- V32: thirteen bytes come out. -/
theorem test_decFinal : (after (inStream nist .decRun iv0 0xe5ae9fba2e040e7367740eab455c1db6) 0x00001009).map (·.1)
    = some 0x0D2C000E#32 := by decide +kernel

/-- V35: a wrong key shows as bad padding, and `CV` is advanced all the same. -/
theorem test_decFinal_wrongKey :
    (after (inStream (keyed .aes128) .decRun iv0 0xe5ae9fba2e040e7367740eab455c1db6) 0x00001009).map (fun r => (r.1, r.2.2))
      = some (0x002C0412#32, blk 0xe5ae9fba2e040e7367740eab455c1db6) := by decide +kernel

/-- V51. -/
theorem test_reset : keyAfter nist 0x0000000F 0x44 0x10 = some (0#32, 0#32, 0#32) := by decide +kernel

/-- V51: `RESET` with a reserved bit set does not reset. -/
theorem test_reset_reservedBit : keyAfter (keyed .aes128) 0x0000001F 0x44 0x00 = some (0x002C0702#32, 0xD6AA74FD#32, 0#32) := by
  decide +kernel

/-- V53: the priority of errors, on the words of that table. -/
theorem test_errorPriority :
    [0x00001109, 0x00000509, 0x00642801, 0x00640801, 0x00004005, 0x00000307].map
      (fun w => (after State.reset w).map (fun r => r.1.extractLsb' 8 4))
      = [some 7#4, some 5#4, some 7#4, some 2#4, some 7#4, some 5#4] := by decide +kernel

/-! ### The host port -/

/-- V52: reserved and write-only indices, the end of the schedule window, and the byte order of `CV0`. -/
theorem test_hostRead :
    [0x02#7, 0x1C#7, 0x3F#7, 0x7C#7, 0x7F#7, 0x00#7, 0x04#7, 0x6B#7, 0x6C#7].map (fun i => hostRead i (keyed .aes128))
      = [0#32, 0#32, 0#32, 0#32, 0#32, 0#32, 0#32, 0x4D2B30C5#32, 0#32]
    ∧ hostRead 0x18#7 (inStream nist .encRun iv0 0) = 0x00010203#32 := by decide +kernel

/-- V52: a write to `IV2` is read back; a write to `KS4` is ignored. -/
theorem test_hostWrite :
    nextHolds (fun t => decide (hostRead 0x0E#7 t = 0x33333333#32)) (hostWrite 0x0E#7 0x33333333#32 (keyed .aes128)) = true
    ∧ nextHolds (fun t => decide (hostRead 0x44#7 t = 0xD6AA74FD#32)) (hostWrite 0x44#7 0#32 (keyed .aes128)) = true := by
  decide +kernel

/-- R298: while busy, a `STATUS` read is made and a `DIN` read is not. -/
theorem test_busy :
    nextHolds (fun t => decide (t.replies = [1#32])) (step { State.reset with busy := true, pending := [.read 0x01#7] }) = true
    ∧ nextHolds (fun _ => true) (step { State.reset with busy := true, pending := [.read 0x10#7] }) = false := by
  decide +kernel

/-- Kind, ending and number of output bytes of each stream of a run. -/
def streamsOf (as : List Access) (s : State) : List (StreamKind × StreamEnd × Nat) :=
  match session as s with
  | some (_, ms) => (streams ms).map fun r => (r.kind, r.ending, r.output.length)
  | none => []

/-- R303: `NOP` and a refused command leave a stream open; `RESET` and a new `START` take it away. -/
theorem test_streams_replaced :
    streamsOf [.write 0x00#7 0x00000004#32, .write 0x00#7 0x00000000#32, .write 0x00#7 0x00000009#32,
        .write 0x00#7 0x00000004#32, .write 0x00#7 0x0000000F#32] nist
      = [(.encryption, .replaced, 16), (.encryption, .replaced, 16)] := by decide +kernel

/-- R303: a failed stream, one that has not ended, and (V26: no key) a `START` that opens none. -/
theorem test_streams_open :
    streamsOf [.write 0x00#7 0x00000507#32, .write 0x00#7 0x00000004#32] nist
      = [(.decryption, .failed .streamTruncated, 0), (.encryption, .notEnded, 16)]
    ∧ streamsOf [.write 0x00#7 0x00000004#32] State.reset = [] := by decide +kernel

/-- A host in the middle of a stream, all output read, with `n` bytes left and all of `DIN` written or none. -/
def midStream (n : Nat) (written : List (Fin 4)) : HostRecord :=
  { HostRecord.start [.aes128] [] [] with left := some n, dinWritten := written }

/-- Whether writing a command word in a state keeps a duty. -/
def keepsAt (r : HostRecord) (s : State) (w : Word) (d : HostDuty) : Bool :=
  r.keeps { before := s, access := .write 0x00#7 w, after := s } d

/-- R305 HD4, R297, R300: a block command needs a new `DIN` and a full block, and `DEC_BLOCK` one byte more. -/
theorem test_duties_block :
    keepsAt (midStream 16 []) (inStream nist .encRun iv0 0) 0x00000005#32 .hd4 = false
    ∧ keepsAt (midStream 16 [3, 2, 1, 0]) (inStream nist .encRun iv0 0) 0x00000005#32 .hd4 = true
    ∧ keepsAt (midStream 15 [3, 2, 1, 0]) (inStream nist .encRun iv0 0) 0x00000005#32 .hd4 = false
    ∧ keepsAt (midStream 16 [3, 2, 1, 0]) (inStream nist .decRun iv0 0) 0x00000008#32 .hd4 = false
    ∧ keepsAt (midStream 17 [3, 2, 1, 0]) (inStream nist .decRun iv0 0) 0x00000008#32 .hd4 = true := by decide +kernel

/-- R305 HD4 and R300, U6: an ECB command needs a new `DIN`, and takes it. -/
theorem test_duties_ecb :
    keepsAt (HostRecord.start [] [] []) nist 0x00000002#32 .hd4 = false
    ∧ keepsAt { HostRecord.start [] [] [] with dinWritten := [3, 2, 1, 0] } nist 0x00000002#32 .hd4 = true
    ∧ (({ HostRecord.start [] [] [] with dinWritten := [3, 2, 1, 0] } : HostRecord).next
        { before := nist, access := .write 0x00#7 0x00000003#32, after := nist }).dinWritten = [] := by decide +kernel

/-- R305 HD6 and R298: after a `CTRL` write, `NOP` too, nothing but a `STATUS` read until one shows `BUSY = 0`. -/
theorem test_duties_poll (r : HostRecord) (hr : r = (HostRecord.start [] [] []).next
      { before := nist, access := .write 0x00#7 0x00000000#32, after := nist }) :
    keepsAt r nist 0x00000004#32 .hd6 = false
    ∧ r.keeps { before := nist, access := .read 0x14#7, after := nist } .hd6 = false
    ∧ r.keeps { before := nist, access := .read 0x01#7, after := nist } .hd6 = true
    ∧ keepsAt (r.next { before := nist, access := .read 0x01#7, after := nist }) nist 0x00000004#32 .hd6 = true
    ∧ (r.next { before := { nist with busy := true }, access := .read 0x01#7, after := nist }).polled = false := by
  subst hr; decide +kernel

/-- R305 HD5 and HD8: the true count; no `START` and no `INIT` before the final command. -/
theorem test_duties_end :
    keepsAt (midStream 5 [1, 0]) (inStream nist .encRun iv0 0) 0x00000506#32 .hd5 = true
    ∧ keepsAt (midStream 5 [1, 0]) (inStream nist .encRun iv0 0) 0x00000406#32 .hd5 = false
    ∧ keepsAt (midStream 5 [1, 0]) (inStream nist .encRun iv0 0) 0x00000004#32 .hd5 = false
    ∧ dutiful (midStream 5 [1, 0]) [] = false
    ∧ keepsAt (midStream 5 []) (inStream nist .encRun iv0 0) 0x00801001#32 .hd8 = false := by decide +kernel

/-- R305 HD1 to HD3: the intended variant, a fresh IV, the true count. -/
theorem test_duties_start :
    keepsAt (HostRecord.start [.aes128] [] []) nist 0x00801001#32 .hd1 = true
    ∧ keepsAt (HostRecord.start [.aes256] [] []) nist 0x00801001#32 .hd1 = false
    ∧ keepsAt (HostRecord.start [] [0] []) nist 0x00000004#32 .hd2 = true
    ∧ keepsAt (HostRecord.start [] [0] [ivBlock nist]) nist 0x00000004#32 .hd2 = false
    ∧ keepsAt { HostRecord.start [] [40] [] with dinWritten := [3, 2, 1, 0] } nist 0x00001007#32 .hd3 = true
    ∧ keepsAt { HostRecord.start [] [10] [] with dinWritten := [3, 2, 1, 0] } nist 0x00001007#32 .hd3 = false := by
  decide +kernel

/-! ### Witnesses: for every statement with hypotheses, a state and operands that meet them, clause by clause

A witness is named after its statement. Where a statement's hypothesis is `exec i s = .next t`, the witness gives an `i`
and an `s` that have such a `t`. -/

/-- The legal words at the ends of each `LEN` range. -/
theorem witness_DecodeEncodeRoundTrip : (Instr.init 32 511).wellFormed = true ∧ (Instr.encFinal 15 0).wellFormed = true
    ∧ (Instr.decFinal 16 256).wellFormed = true := by decide

theorem witness_EncodeDecodeRoundTrip : decode 0x01002001#32 = .ok (.init 32 256) ∧ decode 0x00000F06#32 = .ok (.encFinal 15 0) :=
  ⟨rfl, rfl⟩

/-- A word with a reserved bit; and words without one, with every `OP` and with `LEN` on both sides of each limit. -/
theorem witness_DecodeIsTheOpcodeMap : 0x80000000#32 &&& 0xFE00C0F0#32 ≠ 0#32
    ∧ [0x00, 0x02, 0x03, 0x04, 0x05, 0x08, 0x0A, 0x0E, 0x0F, 0x2001, 0x2101, 0x0F06, 0x1006, 0x1007, 0x1107, 0x1009, 0x1109].all
        (fun w : Nat => decide (BitVec.ofNat 32 w &&& 0xFE00C0F0#32 = 0#32)) = true
    ∧ [0x2001, 0x2101, 0x0F06, 0x1006, 0x1007, 0x1107, 0x1009, 0x1109].map (fun w : Nat => (w % 16, w / 256 % 64))
        = [(1, 32), (1, 33), (6, 15), (6, 16), (7, 16), (7, 17), (9, 16), (9, 17)] := by decide

/-- One word for each reason. -/
theorem witness_IllegalWordChangesOnlyTheStatus : State.reset.busy = false ∧ decode 0x00000010#32 = .error .reservedBit
    ∧ decode 0x0000000A#32 = .error .reservedOp ∧ decode 0x00802101#32 = .error .lenOutOfRange := ⟨rfl, rfl, rfl, rfl⟩

theorem witness_XtimeDoubles : (0x7F#8).toNat < 128 ∧ 128 ≤ (0x80#8).toNat := by decide

theorem witness_SboxIsAffineInverse : 0x00#8 = 0x00#8 ∧ 0x53#8 ≠ 0x00#8 := by decide

/-- Two blocks that differ and share a cell, a row and a column. -/
theorem witness_PrimitivesKeepToTheirLanes : ∃ s t u : Block, s ≠ t ∧ (∀ c, cell s 0 c = cell t 0 c)
    ∧ s ≠ u ∧ (∀ r, cell s r 0 = cell u r 0) :=
  ⟨blk 0, blk 0x00010000000000000000000000000000, blk 0x00000000010000000000000000000000, by decide +kernel⟩

theorem witness_MixColumnExamples : ∃ (s : Block) (a0 a1 a2 a3 : Byte),
    a0 = cell s 0 3 ∧ a1 = cell s 1 3 ∧ a2 = cell s 2 3 ∧ a3 = cell s 3 3 := ⟨blk 0xDB135345, _, _, _, _, rfl, rfl, rfl, rfl⟩

theorem witness_FixedVectorHolds : ∃ key plain code : Block, key = Vector.ofFn (fun i => BitVec.ofNat 8 i.val)
    ∧ plain = Vector.ofFn (fun i => BitVec.ofNat 8 (0x11 * i.val))
    ∧ code = #v[0x69#8, 0xC4#8, 0xE0#8, 0xD8#8, 0x6A#8, 0x7B#8, 0x04#8, 0x30#8, 0xD8#8, 0xCD#8, 0xB7#8, 0x80#8, 0x70#8, 0xB4#8,
      0xC5#8, 0x5A#8] := ⟨_, _, _, rfl, rfl, rfl⟩

/-- A key of each variant, and an index for each clause: the last key word, the two ends of the loop with each kind of
step, and the first and last words above the schedule. -/
theorem witness_ExpansionFollowsTheRecurrence :
    (∀ v : Variant, (List.replicate (4 * v.keyWords.val) 0#8).length = 4 * v.keyWords.val)
    ∧ (3 < 4 ∧ 4 * 3 + 3 < 4 * 4) ∧ (4 ≤ 4 ∧ 4 % 4 = 0) ∧ (8 ≤ 52 ∧ 52 < 4 * (8 + 6 + 1) ∧ 6 < 8 ∧ 52 % 8 = 4)
    ∧ (6 ≤ 51 ∧ 51 < 4 * (6 + 6 + 1) ∧ 51 % 6 ≠ 0 ∧ ¬(6 < 6 ∧ 51 % 6 = 4)) ∧ (4 * (4 + 6 + 1) ≤ 44 ∧ 44 < 60) ∧ (4 * (6 + 6 + 1) ≤ 59 ∧ 59 < 60) :=
  ⟨fun _ => List.length_replicate, by decide, by decide, by decide, by decide, by decide, by decide⟩

/-- Each of the four clauses, at its boundary. -/
theorem witness_InitCommand : 32 < (33#6).toNat
    ∧ ((32#6).toNat ≤ 32 ∧ 257#9 ≠ 128#9 ∧ 257#9 ≠ 192#9 ∧ 257#9 ≠ 256#9)
    ∧ ((256#9).toNat = 32 * Variant.aes256.keyWords.val ∧ (31#6).toNat < 4 * Variant.aes256.keyWords.val)
    ∧ ((128#9).toNat = 32 * Variant.aes128.keyWords.val ∧ 4 * Variant.aes128.keyWords.val ≤ (16#6).toNat
        ∧ (16#6).toNat ≤ 32)
    ∧ ((256#9).toNat = 32 * Variant.aes256.keyWords.val ∧ 4 * Variant.aes256.keyWords.val ≤ (32#6).toNat
        ∧ (32#6).toNat ≤ 32) := by decide

theorem witness_InitSelectsTheVariant : ∃ t, exec (.init 24 192) countKey = .next t ∧ decide (t.err = .none) = true :=
  exists_of_nextHolds (by decide +kernel)

/-- Two key buffers that differ above the words AES-128 reads. -/
theorem witness_InitUsesOnlyItsKeyWords : ∃ s s' t t' : State, s.keybuf ≠ s'.keybuf
    ∧ exec (.init 16 128) s = .next t ∧ exec (.init 32 128) s' = .next t' ∧ t.err = .none ∧ t'.err = .none
    ∧ ∀ j : Fin 8, 32 * j.val < (128#9).toNat → s.keybuf[j] = s'.keybuf[j] := by
  obtain ⟨t, h, e⟩ := exists_of_nextHolds (p := fun t => decide (t.err = .none)) (o := exec (.init 16 128) countKey)
    (by decide +kernel)
  obtain ⟨t', h', e'⟩ := exists_of_nextHolds (p := fun t => decide (t.err = .none))
    (o := exec (.init 32 128) { countKey with keybuf := countKey.keybuf.set 7 0#32 }) (by decide +kernel)
  exact ⟨_, _, t, t', by decide +kernel, h, h', of_decide_eq_true e, of_decide_eq_true e', by decide +kernel⟩

/-- A step that leaves the schedule, one that is a hardware reset, and one that runs `INIT`. -/
theorem witness_ScheduleIsReadOnly :
    nextHolds (fun t => decide (t.ks = (keyed .aes128).ks)) (step ((keyed .aes128).withFetchWord 32 0x00000002)) = true
    ∧ nextHolds (fun t => decide (t.ksValid = false)) (step { keyed .aes128 with pending := [.hardwareReset] }) = true
    ∧ nextHolds (fun t => decide (t.nk = 8)) (step ((keyed .aes128).withFetchWord 32 0x01002001)) = true := by
  decide +kernel

/-- Without and with a key: the hypotheses of `EcbEncCommand`, `EcbDecCommand` and `EncStartCommand`. -/
theorem witness_EcbEncCommand : State.reset.ksValid = false ∧ (keyed .aes128).ksValid = true := ⟨rfl, rfl⟩

theorem witness_EcbDecCommand : State.reset.ksValid = false ∧ (keyed .aes192).ksValid = true := ⟨rfl, rfl⟩

theorem witness_EncStartCommand : State.reset.ksValid = false ∧ (keyed .aes256).ksValid = true := ⟨rfl, rfl⟩

theorem witness_EncBlockCommand : State.reset.ksValid = false ∧ (nist.ksValid = true ∧ nist.stream ≠ .encRun)
    ∧ (inStream nist .encRun iv0 0).ksValid = true ∧ (inStream nist .encRun iv0 0).stream = .encRun := by
  refine ⟨rfl, ⟨rfl, ?_⟩, rfl, rfl⟩
  intro h; cases h

/-- Each clause, with `LEN` at both sides of its limit. -/
theorem witness_EncFinalCommand : 15 < (16#6).toNat ∧ ((15#6).toNat ≤ 15 ∧ State.reset.ksValid = false)
    ∧ ((0#6).toNat ≤ 15 ∧ nist.ksValid = true ∧ nist.stream ≠ .encRun)
    ∧ ((15#6).toNat ≤ 15 ∧ (inStream nist .encRun iv0 0).ksValid = true ∧ (inStream nist .encRun iv0 0).stream = .encRun) := by
  refine ⟨by decide, ⟨by decide, rfl⟩, ⟨by decide, rfl, ?_⟩, by decide, rfl, rfl⟩
  intro h; cases h

theorem witness_DecStartCommand : 16 < (17#6).toNat ∧ ((16#6).toNat ≤ 16 ∧ State.reset.ksValid = false)
    ∧ ((15#6).toNat < 16 ∧ nist.ksValid = true) ∧ ((16#6).toNat = 16 ∧ nist.ksValid = true) :=
  ⟨by decide, ⟨by decide, rfl⟩, ⟨by decide, rfl⟩, by decide, rfl⟩

theorem witness_DecBlockCommand : State.reset.ksValid = false ∧ (nist.ksValid = true ∧ nist.stream ≠ .decRun)
    ∧ (inStream nist .decRun iv0 0).ksValid = true ∧ (inStream nist .decRun iv0 0).stream = .decRun := by
  refine ⟨rfl, ⟨rfl, ?_⟩, rfl, rfl⟩
  intro h; cases h

/-- The four clauses that look at no padding. -/
theorem witness_DecFinalCommand : 16 < (17#6).toNat ∧ ((16#6).toNat ≤ 16 ∧ State.reset.ksValid = false)
    ∧ ((16#6).toNat ≤ 16 ∧ nist.ksValid = true ∧ nist.stream ≠ .decRun)
    ∧ ((15#6).toNat < 16 ∧ (inStream nist .decRun iv0 0).ksValid = true ∧ (inStream nist .decRun iv0 0).stream = .decRun) := by
  refine ⟨by decide, ⟨by decide, rfl⟩, ⟨by decide, rfl, ?_⟩, by decide, rfl, rfl⟩
  intro h; cases h

/-- The two clauses that do: V35 (invalid) and V32 (valid), with the plaintext block the spec gives. -/
theorem witness_DecFinalCommand_padding :
    (∀ s, s = inStream (keyed .aes128) .decRun iv0 0xe5ae9fba2e040e7367740eab455c1db6 →
      s.ksValid = true ∧ s.stream = .decRun
        ∧ padValid (xorBlock (invCipher s.ks s.nr.val (wordsBlock s.din)) s.cv) = false)
    ∧ (∀ s, s = inStream nist .decRun iv0 0xe5ae9fba2e040e7367740eab455c1db6 →
      s.ksValid = true ∧ s.stream = .decRun
        ∧ xorBlock (invCipher s.ks s.nr.val (wordsBlock s.din)) s.cv = blk 0x000102030405060708090a0b0c030303
        ∧ padValid (blk 0x000102030405060708090a0b0c030303) = true ∧ (13 : Fin 17).val = 16 - (0x03#8).toNat) := by
  constructor <;> (rintro _ rfl; decide +kernel)

/-- Both ends of the range of `n`; also for `PadValidIsExact`. -/
theorem witness_PadAndPadValid : 0 ≤ 15 ∧ 15 ≤ 15 := by decide

theorem witness_PadValidIsExact : 0 ≤ 15 ∧ 15 ≤ 15 := by decide

theorem witness_PaddingCornerCases : (blk 0x01)[15] = 0x01#8 ∧ (blk 0)[15] = 0x00#8 ∧ 17 ≤ (blk 0x11)[15].toNat := by
  decide +kernel

/-- A success that moves the stream, a failure that ends it, and a command that needs an open stream and finds it. -/
theorem witness_StreamStateMachine :
    (∃ t, exec (.encStart 0 0) nist = .next t ∧ decide (t.stream = .encRun ∧ t.err = .none) = true)
    ∧ (∃ t, exec (.decStart 15 0) nist = .next t ∧ decide (t.stream = .failed) = true)
    ∧ (∃ t, exec (.encFinal 0 0) (inStream nist .encRun iv0 0) = .next t ∧ decide (t.err = .none) = true) :=
  ⟨exists_of_nextHolds (by decide +kernel), exists_of_nextHolds (by decide +kernel), exists_of_nextHolds (by decide +kernel)⟩

/-- The second clause: a stream that failed, and one that ended. -/
theorem witness_StreamStateMachine_badSequence :
    ((inStream nist .failed iv0 0).stream ≠ .encRun ∧ (inStream nist .done iv0 0).stream ≠ .decRun)
    ∧ (inStream nist .failed iv0 0).ksValid = true ∧ (inStream nist .done iv0 0).ksValid = true
    ∧ (Instr.encFinal 15 0).wellFormed = true ∧ (Instr.decFinal 16 0).wellFormed = true := by
  refine ⟨⟨?_, ?_⟩, rfl, rfl, rfl, rfl⟩ <;> (intro h; cases h)

theorem witness_ChainingErrorsFlipTheSameBits :
    (inStream nist .decRun iv0 0).ksValid = true ∧ (inStream nist .decRun iv0 0).stream = .decRun
    ∧ (∃ t, exec (.decBlock 0 0) (inStream nist .decRun iv0 0) = .next t ∧ decide (t.err = .none) = true)
    ∧ (∃ t, exec (.decBlock 1 1) { inStream nist .decRun iv0 0 with
        cv := xorBlock (inStream nist .decRun iv0 0).cv (blk 1) } = .next t ∧ decide (t.err = .none) = true) :=
  ⟨rfl, rfl, exists_of_nextHolds (by decide +kernel), exists_of_nextHolds (by decide +kernel)⟩

/-- Two input blocks that agree below `LEN = 13` and differ above. -/
theorem witness_EncFinalIgnoresBytesBeyondLen :
    (∀ i : Fin 16, i.val < (13#6).toNat → (wordsBlock (regs 0xFF))[i] = (wordsBlock (inStream nist .encRun iv0 0).din)[i])
    ∧ (∃ t, exec (.encFinal 13 0) (inStream nist .encRun iv0 0) = .next t ∧ decide (t.err = .none) = true)
    ∧ (∃ t, exec (.encFinal 13 0) { inStream nist .encRun iv0 0 with din := regs 0xFF } = .next t
        ∧ decide (t.err = .none) = true) :=
  ⟨by decide +kernel, exists_of_nextHolds (by decide +kernel), exists_of_nextHolds (by decide +kernel)⟩

/-- A command other than `NOP` that succeeds and one that fails: the hypotheses of `ErrorPriority` and `OutputRule`. -/
theorem witness_ErrorPriority :
    (∃ t, exec (.ecbEnc 0 0) (keyed .aes128) = .next t ∧ decide (t.err = .none) = true)
    ∧ (∃ t, exec (.decFinal 5 0) State.reset = .next t ∧ decide (t.err = .noKey) = true)
    ∧ (∀ l k, Instr.ecbEnc 0 0 ≠ .nop l k) ∧ decode 0x80000001#32 = .error .reservedBit := by
  refine ⟨exists_of_nextHolds (by decide +kernel), exists_of_nextHolds (by decide +kernel), ?_, rfl⟩
  intro l k h; cases h

/-- A command that emits 16 bytes, one that emits 13, one that fails, and the last command of program P3, which emits
nothing and writes `DOUT` (log entry 16). -/
theorem witness_OutputRule :
    (∃ t, exec (.ecbEnc 0 0) (keyed .aes128) = .next t ∧ decide (t.outCount = 16) = true)
    ∧ (∃ t, exec (.decFinal 16 0) (inStream nist .decRun iv0 0xe5ae9fba2e040e7367740eab455c1db6) = .next t
        ∧ decide (t.outCount = 13) = true)
    ∧ (∃ t, exec (.encBlock 0 0) nist = .next t ∧ decide (t.outCount = 0) = true)
    ∧ after (inStream nist .decRun (blk 0x3ff1caa1681fac09120eca307586e1a7) 0x8cb82807230e1321d3fae00d18cc2012) 0x00001009
      = some (0x002C000E#32, blk 0x10101010101010101010101010101010, blk 0x8cb82807230e1321d3fae00d18cc2012) :=
  ⟨exists_of_nextHolds (by decide +kernel), exists_of_nextHolds (by decide +kernel), exists_of_nextHolds (by decide +kernel),
    by decide +kernel⟩

/-- Each of the four clauses. -/
theorem witness_ErrorsArePrecise :
    (∃ t, exec (.encBlock 0 0) nist = .next t ∧ decide (t.err = .badSequence) = true)
    ∧ (∃ t, exec (.decStart 0 0) nist = .next t ∧ decide (t.err = .streamTruncated) = true)
    ∧ (∃ t, exec (.init 15 128) nist = .next t ∧ decide (t.err = .invalidKeyLength) = true)
    ∧ (∃ t, exec (.decFinal 16 0) (inStream (keyed .aes128) .decRun iv0 0xe5ae9fba2e040e7367740eab455c1db6) = .next t
        ∧ decide (t.err = .paddingInvalid) = true) :=
  ⟨exists_of_nextHolds (by decide +kernel), exists_of_nextHolds (by decide +kernel), exists_of_nextHolds (by decide +kernel),
    exists_of_nextHolds (by decide +kernel)⟩

theorem witness_InputRegistersAreNotConsumed :
    (∃ t, exec (.decBlock 0 0) (inStream nist .decRun iv0 0xFF) = .next t ∧ decide (t.err = .none) = true)
    ∧ ∀ l k, Instr.decBlock 0 0 ≠ .reset l k := by
  refine ⟨exists_of_nextHolds (by decide +kernel), ?_⟩
  intro l k h; cases h

/-- A command that is neither `INIT` nor `RESET`, and `RESET`. -/
theorem witness_KeyBufferIsReadOnlyByInit :
    (∃ t, exec (.ecbEnc 0 0) (keyed .aes128) = .next t ∧ decide (t.err = .none) = true)
    ∧ (∃ t, exec (.reset 0 0) (keyed .aes128) = .next t ∧ decide (t.ksValid = false) = true)
    ∧ (∀ l k, Instr.ecbEnc 0 0 ≠ .init l k) ∧ (∀ l k, Instr.ecbEnc 0 0 ≠ .reset l k)
    ∧ ∀ l k, Instr.reset 0 0 ≠ .init l k := by
  refine ⟨exists_of_nextHolds (by decide +kernel), exists_of_nextHolds (by decide +kernel), ?_, ?_, ?_⟩ <;>
    (intro l k h; cases h)

theorem witness_ResetValues : ∃ s, s = State.reset := ⟨_, rfl⟩

/-- The first and the last index of every range. -/
theorem witness_HostReadMap : (0x01#7).toNat = 0x01
    ∧ ((0x0C#7).toNat = 0x0C + (0 : Fin 4).val ∧ (0x0F#7).toNat = 0x0C + (3 : Fin 4).val)
    ∧ ((0x10#7).toNat = 0x10 + (0 : Fin 4).val ∧ (0x13#7).toNat = 0x10 + (3 : Fin 4).val)
    ∧ ((0x14#7).toNat = 0x14 + (0 : Fin 4).val ∧ (0x17#7).toNat = 0x14 + (3 : Fin 4).val)
    ∧ ((0x18#7).toNat = 0x18 + (0 : Fin 4).val ∧ (0x1B#7).toNat = 0x18 + (3 : Fin 4).val)
    ∧ ((0x40#7).toNat = 0x40 + (0 : Fin 60).val ∧ (0x7B#7).toNat = 0x40 + (59 : Fin 60).val)
    ∧ ([0x00#7, 0x02#7, 0x0B#7, 0x1C#7, 0x3F#7, 0x7C#7, 0x7F#7].all fun i => decide
        (i.toNat = 0x00 ∨ (0x02 ≤ i.toNat ∧ i.toNat ≤ 0x0B) ∨ (0x1C ≤ i.toNat ∧ i.toNat ≤ 0x3F) ∨ 0x7C ≤ i.toNat))
        = true := by decide

theorem witness_HostWriteMap : (0x00#7).toNat = 0x00
    ∧ ((0x04#7).toNat = 0x04 + (0 : Fin 8).val ∧ (0x0B#7).toNat = 0x04 + (7 : Fin 8).val)
    ∧ ((0x0C#7).toNat = 0x0C + (0 : Fin 4).val ∧ (0x0F#7).toNat = 0x0C + (3 : Fin 4).val)
    ∧ ((0x10#7).toNat = 0x10 + (0 : Fin 4).val ∧ (0x13#7).toNat = 0x10 + (3 : Fin 4).val)
    ∧ ([0x01#7, 0x03#7, 0x14#7, 0x7F#7].all fun i => decide
        ((0x01 ≤ i.toNat ∧ i.toNat ≤ 0x03) ∨ 0x14 ≤ i.toNat)) = true := by decide

theorem witness_ReadsHaveNoSideEffects : ∃ s : State, s.busy = false ∧ s.pending = .read 0x7F#7 :: [] :=
  ⟨{ State.reset with pending := [.read 0x7F#7] }, rfl, rfl⟩

/-- A write, a read of `CTRL` and a read of `STATUS`. -/
theorem witness_AccessWhileBusyFaults : ∃ s t u : State,
    (s.busy = true ∧ s.pending = .write 0x00#7 0#32 :: []) ∧ (t.busy = true ∧ (0#7 : Index) ≠ 1#7 ∧ t.pending = .read 0#7 :: [])
      ∧ u.busy = true ∧ u.pending = .read 1#7 :: [] :=
  ⟨{ State.reset with busy := true, pending := [.write 0x00#7 0#32] },
    { State.reset with busy := true, pending := [.read 0#7] },
    { State.reset with busy := true, pending := [.read 1#7] }, ⟨rfl, rfl⟩, ⟨rfl, by decide, rfl⟩, rfl, rfl⟩

/-- Each of the four clauses. -/
theorem witness_StepRunsTheDecodedCommand :
    ((nist.withFetchWord 32 2).busy = false ∧ (nist.withFetchWord 32 2).pending = .write 0#7 0x00000002#32 :: []
      ∧ decode 0x00000002#32 = .ok (.ecbEnc 0 0))
    ∧ (∃ s : State, s.busy = false ∧ s.pending = .write 0x13#7 5#32 :: [])
    ∧ (∃ s : State, s.pending = .hardwareReset :: []) ∧ State.reset.pending = [] :=
  ⟨⟨rfl, rfl, rfl⟩, ⟨{ State.reset with pending := [.write 0x13#7 5#32] }, rfl, rfl⟩,
    ⟨{ State.reset with pending := [.hardwareReset] }, rfl⟩, rfl⟩

/-- A consistent state with a key, and a step from it: the hypotheses of `ConsistentIsKept` and `ConsistentStepsComplete`. -/
theorem witness_ConsistentIsKept : Consistent (keyed .aes128)
    ∧ nextHolds (fun t => t.ksValid) (step ((keyed .aes128).withFetchWord 32 0x00000004)) = true := by
  refine ⟨⟨rfl, fun _ => ⟨.aes128, (keyBytes countKey).take 16, by decide +kernel, rfl, rfl, rfl⟩, ?_, ?_⟩, by decide +kernel⟩
  · intro h; cases h
  · intro h; exact absurd rfl h

theorem witness_ConsistentStepsComplete : Consistent (keyed .aes128) := witness_ConsistentIsKept.1

theorem witness_SequencersAreInvisible :
    nextHolds (fun t => decide (t.err = .none)) (step ((keyed .aes128).withFetchWord 32 0x00000002)) = true := by decide +kernel

/-- A stream of each ending. -/
theorem witness_StreamsEndByTheRule :
    streamsOf [.write 0x00#7 0x00000004#32, .write 0x00#7 0x00000006#32, .write 0x00#7 0x00000507#32,
        .write 0x00#7 0x00000004#32, .write 0x00#7 0x00801001#32, .write 0x00#7 0x00000004#32] nist
      = [(.encryption, .normally, 32), (.decryption, .failed .streamTruncated, 0), (.encryption, .replaced, 16),
         (.encryption, .notEnded, 16)] := by decide +kernel

/-- A clean launch from each stream state it admits, and an IV that is fresh. -/
theorem witness_EncryptionStream : cleanLaunch nist ∧ cleanLaunch (inStream nist .done iv0 0)
    ∧ cleanLaunch (inStream nist .failed iv0 0) ∧ 0 ≤ 15 ∧ 15 ≤ 15 ∧ iv0 ∉ [blk 0] :=
  ⟨⟨rfl, rfl, .inl rfl⟩, ⟨rfl, rfl, .inr (.inl rfl)⟩, ⟨rfl, rfl, .inr (.inr rfl)⟩, by decide, by decide, by decide +kernel⟩

/-- The four rows: a short IV, an IV alone, a short last chunk, and one block whose padding is valid or not. -/
theorem witness_DecryptionStream : cleanLaunch nist ∧ (0#6).toNat ≤ 15 ∧ (15#6).toNat ≤ 15 ∧ (1 ≤ 1 ∧ 15 ≤ 15)
    ∧ (∃ p, cbcDecrypt nist.ks nist.nr.val iv0 ([] ++ [blk 0xe5ae9fba2e040e7367740eab455c1db6]) = [] ++ [p]
        ∧ padValid p = true)
    ∧ (∃ p, cbcDecrypt nist.ks nist.nr.val iv0 ([] ++ [blk 0]) = [] ++ [p] ∧ padValid p = false) :=
  ⟨⟨rfl, rfl, .inl rfl⟩, by decide, by decide, by decide, ⟨_, rfl, by decide +kernel⟩, ⟨_, rfl, by decide +kernel⟩⟩

/-- Two clean launches under one schedule. -/
theorem witness_StreamRoundTrip : cleanLaunch nist ∧ cleanLaunch (inStream nist .failed iv0 0)
    ∧ (inStream nist .failed iv0 0).ks = nist.ks ∧ (inStream nist .failed iv0 0).nr = nist.nr ∧ 0 ≤ 15 ∧ 15 ≤ 15 :=
  ⟨⟨rfl, rfl, .inl rfl⟩, ⟨rfl, rfl, .inr (.inr rfl)⟩, rfl, rfl, by decide, by decide⟩

end Sys2Proof.Tests
end

section
/-! PROOFS. The statements about the state as a whole (10_state.md): the invariant of every step, the output rule, the
`STATUS` word, and the invisibility of the sequencing registers. -/

namespace Sys2Proof.Machine

/-! ### The invariant `Consistent`, once per operation on the state -/

section

variable {s : State} (h : Consistent s)
include h

theorem Consistent.fail (c : ErrCode) : Consistent (s.fail c) :=
  ⟨h.idle, h.keyed, h.unkeyed, fun _ => rfl⟩

theorem Consistent.emit (b : Block) (n : Fin 17) : Consistent (s.emit b n) :=
  ⟨h.idle, h.keyed, h.unkeyed, fun he => absurd rfl he⟩

theorem Consistent.emitNothing : Consistent s.emitNothing :=
  ⟨h.idle, h.keyed, h.unkeyed, fun _ => rfl⟩

theorem Consistent.sequencersFree : Consistent s.sequencersFree :=
  ⟨h.idle, h.keyed, h.unkeyed, h.failedSilent⟩

/-- The registers the host writes and the host's side are not looked at. -/
theorem Consistent.setHost (kb : Vector Word 8) (iv din : Vector Word 4) (p : List Access) (r : List Word) :
    Consistent { s with keybuf := kb, iv := iv, din := din, pending := p, replies := r } :=
  ⟨h.idle, h.keyed, h.unkeyed, h.failedSilent⟩

/-- With a key, the mode controller may write its registers and go to any stream state. -/
theorem Consistent.setStream (hk : s.ksValid = true) (cv nextIv state : Block) (st : StreamState) :
    Consistent { s with cv := cv, nextIv := nextIv, state := state, stream := st } :=
  ⟨h.idle, h.keyed, fun hn => absurd hk (ne_true_of_eq_false hn), h.failedSilent⟩

theorem Consistent.clearKS : Consistent s.clearKS where
  idle := h.idle
  keyed hk := absurd hk Bool.false_ne_true
  unkeyed _ := ⟨rfl, rfl, rfl, rfl⟩
  failedSilent := h.failedSilent

/-- `INIT` loads the expansion of a key of full length: `KEYBUF` holds enough bytes for every variant (R24). -/
theorem Consistent.loadKey (v : Variant) : Consistent (s.loadKey v) where
  idle := h.idle
  keyed _ := ⟨v, (keyBytes s).take (4 * v.keyWords.val), by cases v <;> simp [keyBytes, Variant.keyWords], rfl, rfl, rfl⟩
  unkeyed hn := absurd hn.symm Bool.false_ne_true
  failedSilent := h.failedSilent

end

theorem consistent_toReset (s : State) : Consistent s.toReset where
  idle := rfl
  keyed hk := absurd hk Bool.false_ne_true
  unkeyed _ := ⟨rfl, rfl, rfl, rfl⟩
  failedSilent he := absurd rfl he

/-- Every command keeps the invariant. -/
theorem Consistent.exec {i : Instr} {s t : State} (h : Consistent s) (he : exec i s = .next t) : Consistent t := by
  cases i with
  | nop len kb => obtain rfl := execNop_cases he; exact h
  | init len kb =>
    obtain ⟨-, rfl⟩ | ⟨-, -, rfl⟩ | ⟨v, -, -, -, rfl⟩ | ⟨v, -, -, -, rfl⟩ := execInit_cases he
    · exact h.fail _
    · exact h.clearKS.fail _
    · exact h.clearKS.fail _
    · exact (h.loadKey v).emitNothing.sequencersFree
  | ecbEnc len kb =>
    obtain ⟨-, rfl⟩ | ⟨hk, rfl⟩ := execEcbEnc_cases he
    · exact h.fail _
    · exact ((h.setStream hk ..).emit ..).sequencersFree
  | ecbDec len kb =>
    obtain ⟨-, rfl⟩ | ⟨hk, rfl⟩ := execEcbDec_cases he
    · exact h.fail _
    · exact ((h.setStream hk ..).emit ..).sequencersFree
  | encStart len kb =>
    obtain ⟨-, rfl⟩ | ⟨hk, rfl⟩ := execEncStart_cases he
    · exact h.fail _
    · exact ((h.setStream hk ..).emit ..).sequencersFree
  | encBlock len kb =>
    obtain ⟨-, rfl⟩ | ⟨-, -, rfl⟩ | ⟨hk, -, c, -, rfl⟩ := execEncBlock_cases he
    · exact h.fail _
    · exact h.fail _
    · exact ((h.setStream hk ..).emit ..).sequencersFree
  | encFinal len kb =>
    obtain ⟨-, rfl⟩ | ⟨-, -, rfl⟩ | ⟨-, -, -, rfl⟩ | ⟨-, hk, -, c, -, rfl⟩ := execEncFinal_cases he
    · exact h.fail _
    · exact h.fail _
    · exact h.fail _
    · exact ((h.setStream hk ..).emit ..).sequencersFree
  | decStart len kb =>
    obtain ⟨-, rfl⟩ | ⟨-, -, rfl⟩ | ⟨-, hk, rfl⟩ | ⟨-, hk, rfl⟩ := execDecStart_cases he
    · exact h.fail _
    · exact h.fail _
    · exact (h.setStream hk ..).fail _
    · exact (h.setStream hk ..).emitNothing.sequencersFree
  | decBlock len kb =>
    obtain ⟨-, rfl⟩ | ⟨-, -, rfl⟩ | ⟨hk, -, o, -, rfl⟩ := execDecBlock_cases he
    · exact h.fail _
    · exact h.fail _
    · exact ((h.setStream hk ..).emit ..).sequencersFree
  | decFinal len kb =>
    obtain ⟨-, rfl⟩ | ⟨-, -, rfl⟩ | ⟨-, -, -, rfl⟩ | ⟨-, hk, -, rfl⟩ |
      ⟨-, hk, -, o, p, -, -, ⟨-, rfl⟩ | ⟨-, rfl⟩⟩ := execDecFinal_cases he
    · exact h.fail _
    · exact h.fail _
    · exact h.fail _
    · exact (h.setStream hk ..).fail _
    · exact ((h.setStream hk ..).emit ..).sequencersFree
    · exact ((h.setStream hk ..).fail _).sequencersFree
  | reset len kb => obtain rfl := execReset_cases he; exact consistent_toReset s

/-- Every `CTRL` write keeps the invariant, whatever the word. -/
theorem Consistent.perform {w : Word} {s t : State} (h : Consistent s) (hp : perform w s = .next t) : Consistent t := by
  cases hd : decode w with
  | ok i => exact h.exec (perform_ok hd s ▸ hp)
  | error e =>
    rw [perform_error hd] at hp
    injection hp with hp
    exact hp ▸ h.fail _

/-- Every host write keeps the invariant. -/
theorem Consistent.hostWrite {i : Index} {v : Word} {s t : State} (h : Consistent s)
    (hw : hostWrite i v s = .next t) : Consistent t := by
  obtain ⟨-, hp⟩ | ⟨j, -, rfl⟩ | ⟨j, -, rfl⟩ | ⟨j, -, rfl⟩ | ⟨-, rfl⟩ := hostWrite_cases hw
  · exact h.perform hp
  · exact h.setHost ..
  · exact h.setHost ..
  · exact h.setHost ..
  · exact h

/-- Every access keeps the invariant. -/
theorem Consistent.access {a : Access} {s t : State} (h : Consistent s) (ha : access a s = .next t) : Consistent t := by
  obtain ⟨i, -, rfl⟩ | ⟨i, v, -, -, hw⟩ | ⟨-, rfl⟩ := access_cases ha
  · exact h.setHost ..
  · exact h.hostWrite hw
  · exact consistent_toReset s

/-- Settles O54: each operation on the state keeps the invariant, so each command, host write, access and step does. -/
theorem consistentIsKept : Obligations.ConsistentIsKept := by
  intro s t h hs
  cases hp : s.pending with
  | nil =>
    rw [step_nil hp] at hs
    injection hs with hs
    exact hs ▸ h
  | cons a rest =>
    rw [step_cons hp] at hs
    exact (h.setHost ..).access hs

/-! ### The output rule (R27, R28, R299) -/

/-- What a command does to the output that emits a whole block or nothing. -/
def EmitsBlockOrNothing (s t : State) : Prop :=
  (t.outCount = if t.err = .none then 16 else 0) ∧ (t.outCount = 0 → t.dout = s.dout)

theorem emitsBlockOrNothing_fail (s : State) {c : ErrCode} (hc : c ≠ .none) : EmitsBlockOrNothing s (s.fail c) :=
  ⟨(if_neg hc).symm, fun _ => rfl⟩

theorem emitsBlockOrNothing_emit (s u : State) (b : Block) : EmitsBlockOrNothing s (u.emit b 16).sequencersFree :=
  ⟨rfl, fun h => absurd h (by decide : (16 : Fin 17) ≠ 0)⟩

section

variable {s t : State} {len : BitVec 6}

theorem execEcbEnc_output (h : execEcbEnc s = .next t) : EmitsBlockOrNothing s t := by
  obtain ⟨-, rfl⟩ | ⟨-, rfl⟩ := execEcbEnc_cases h
  · exact emitsBlockOrNothing_fail s (by decide)
  · exact emitsBlockOrNothing_emit s ..

theorem execEcbDec_output (h : execEcbDec s = .next t) : EmitsBlockOrNothing s t := by
  obtain ⟨-, rfl⟩ | ⟨-, rfl⟩ := execEcbDec_cases h
  · exact emitsBlockOrNothing_fail s (by decide)
  · exact emitsBlockOrNothing_emit s ..

theorem execEncStart_output (h : execEncStart s = .next t) : EmitsBlockOrNothing s t := by
  obtain ⟨-, rfl⟩ | ⟨-, rfl⟩ := execEncStart_cases h
  · exact emitsBlockOrNothing_fail s (by decide)
  · exact emitsBlockOrNothing_emit s ..

theorem execEncBlock_output (h : execEncBlock s = .next t) : EmitsBlockOrNothing s t := by
  obtain ⟨-, rfl⟩ | ⟨-, -, rfl⟩ | ⟨-, -, c, -, rfl⟩ := execEncBlock_cases h
  · exact emitsBlockOrNothing_fail s (by decide)
  · exact emitsBlockOrNothing_fail s (by decide)
  · exact emitsBlockOrNothing_emit s ..

theorem execEncFinal_output (h : execEncFinal len s = .next t) : EmitsBlockOrNothing s t := by
  obtain ⟨-, rfl⟩ | ⟨-, -, rfl⟩ | ⟨-, -, -, rfl⟩ | ⟨-, -, -, c, -, rfl⟩ := execEncFinal_cases h
  · exact emitsBlockOrNothing_fail s (by decide)
  · exact emitsBlockOrNothing_fail s (by decide)
  · exact emitsBlockOrNothing_fail s (by decide)
  · exact emitsBlockOrNothing_emit s ..

theorem execDecBlock_output (h : execDecBlock s = .next t) : EmitsBlockOrNothing s t := by
  obtain ⟨-, rfl⟩ | ⟨-, -, rfl⟩ | ⟨-, -, o, -, rfl⟩ := execDecBlock_cases h
  · exact emitsBlockOrNothing_fail s (by decide)
  · exact emitsBlockOrNothing_fail s (by decide)
  · exact emitsBlockOrNothing_emit s ..

/-- `DEC_FINAL`: `16 - p` bytes and the decrypted block after valid padding, nothing after an error (R207). -/
theorem execDecFinal_output (h : execDecFinal len s = .next t) :
    (t.outCount.val = if t.err = .none then 16 - (SpecTable.decrypted s)[15].toNat else 0)
    ∧ t.dout = if t.err = .none then blockWords (SpecTable.decrypted s) else s.dout := by
  obtain ⟨-, rfl⟩ | ⟨-, -, rfl⟩ | ⟨-, -, -, rfl⟩ | ⟨-, -, -, rfl⟩ |
    ⟨-, -, -, o, p, rfl, rfl, ⟨-, rfl⟩ | ⟨-, rfl⟩⟩ := execDecFinal_cases h <;> exact ⟨rfl, rfl⟩

end

/-- Settles O40, command by command: only a successful cipher or stream command emits. -/
theorem outputRule : Obligations.OutputRule := by
  intro i s t h
  cases i with
  | nop len kb => obtain rfl := execNop_cases h; exact ⟨rfl, rfl⟩
  | init len kb =>
    obtain ⟨-, rfl⟩ | ⟨-, -, rfl⟩ | ⟨v, -, -, -, rfl⟩ | ⟨v, -, -, -, rfl⟩ := execInit_cases h <;> exact ⟨rfl, rfl⟩
  | ecbEnc len kb => exact execEcbEnc_output h
  | ecbDec len kb => exact execEcbDec_output h
  | encStart len kb => exact execEncStart_output h
  | encBlock len kb => exact execEncBlock_output h
  | encFinal len kb => exact execEncFinal_output h
  | decStart len kb =>
    obtain ⟨-, rfl⟩ | ⟨-, -, rfl⟩ | ⟨-, -, rfl⟩ | ⟨-, -, rfl⟩ := execDecStart_cases h <;> exact ⟨rfl, rfl⟩
  | decBlock len kb => exact execDecBlock_output h
  | decFinal len kb => exact execDecFinal_output h
  | reset len kb => obtain rfl := execReset_cases h; exact ⟨rfl, rfl⟩

/-! ### The `STATUS` word (R31) -/

/-- Placing a field above the bits already packed adds it at its weight. -/
theorem toNat_or_shiftLeft {a x : Word} {m n k : Nat} (ha : a.toNat = m) (hx : x.toNat = n) (hm : m < 2 ^ k)
    (hn : n * 2 ^ k < 2 ^ 32) : (a ||| x <<< k).toNat = n * 2 ^ k + m := by
  rw [BitVec.toNat_or, BitVec.toNat_shiftLeft, ha, hx, Nat.shiftLeft_eq, Nat.mod_eq_of_lt hn, Nat.or_comm,
    ← Nat.shiftLeft_eq, ← Nat.shiftLeft_add_eq_or_of_lt hm]

/-- Every field of `STATUS` fits its width. -/
theorem statusFields_bounded (s : State) : s.busy.toNat ≤ 1 ∧ s.ksValid.toNat ≤ 1 ∧ s.stream.code.toNat < 2 ^ 3
    ∧ s.err.code.toNat < 2 ^ 4 ∧ ksWords s ≤ 60 ∧ s.outCount.val ≤ 16 := by
  refine ⟨s.busy.toNat_le, s.ksValid.toNat_le, s.stream.code.isLt, s.err.code.isLt, ?_, by omega⟩
  have := s.nr.isLt
  unfold ksWords
  split <;> omega

/-- A flag as a word is its number. -/
theorem toNat_flagWord (b : Bool) : ((BitVec.ofBool b).setWidth 32).toNat = b.toNat := by
  rw [BitVec.toNat_setWidth_of_le (by decide), BitVec.toNat_ofBool]

/-- A count below the word size, as a word, is its number. -/
theorem toNat_countWord {n : Nat} (h : n < 2 ^ 32) : (BitVec.ofNat 32 n).toNat = n := by
  rw [BitVec.toNat_ofNat, Nat.mod_eq_of_lt h]

/-- `STATUS` as a number: each field at its weight, and nothing besides. -/
theorem status_toNat (s : State) : (status s).toNat =
    s.outCount.val * 2 ^ 24 + (ksWords s * 2 ^ 16 + (s.err.code.toNat * 2 ^ 8 + (s.stream.code.toNat * 2 ^ 2
      + (s.ksValid.toNat * 2 ^ 1 + s.busy.toNat)))) := by
  obtain ⟨hbusy, hvalid, hstream, herr, hwords, hcount⟩ := statusFields_bounded s
  refine toNat_or_shiftLeft (toNat_or_shiftLeft (toNat_or_shiftLeft (toNat_or_shiftLeft (toNat_or_shiftLeft
    (toNat_flagWord s.busy) (toNat_flagWord s.ksValid) ?_ ?_)
    (BitVec.toNat_setWidth_of_le (by decide)) ?_ ?_)
    (BitVec.toNat_setWidth_of_le (by decide)) ?_ ?_)
    (toNat_countWord (by omega)) ?_ ?_)
    (toNat_countWord (by omega)) ?_ ?_
  all_goals omega

/-- A bit field of a word is a digit of its number. -/
theorem toNat_extractLsb'_of_digit {x : Word} {m : Nat} (i w : Nat) (h : x.toNat / 2 ^ i % 2 ^ w = m) :
    (x.extractLsb' i w).toNat = m := by
  rw [BitVec.extractLsb'_toNat, Nat.shiftRight_eq_div_pow, h]

/-- A bit of a word is a binary digit of its number. -/
theorem getLsbD_of_digit {x : Word} {b : Bool} (i : Nat) (h : x.toNat / 2 ^ i % 2 = b.toNat) : x.getLsbD i = b := by
  rw [← BitVec.testBit_toNat, Nat.testBit_eq_decide_div_mod_eq, h]
  cases b <;> rfl

theorem hostWrite_status (v : Word) (s : State) : hostWrite 1#7 v s = .next s := by
  unfold hostWrite; rw [portReg_eq_status.mpr rfl]

/-- Settles O47: every field is a digit of the number that `STATUS` is. -/
theorem statusLayout : Obligations.StatusLayout := by
  refine ⟨by decide, by decide, fun s => ?_⟩
  have hn := status_toNat s
  obtain ⟨hbusy, hvalid, hstream, herr, hwords, hcount⟩ := statusFields_bounded s
  refine ⟨getLsbD_of_digit 0 ?_, getLsbD_of_digit 1 ?_,
    BitVec.eq_of_toNat_eq (toNat_extractLsb'_of_digit 2 3 ?_),
    BitVec.eq_of_toNat_eq (toNat_extractLsb'_of_digit (m := 0) 5 3 ?_),
    BitVec.eq_of_toNat_eq (toNat_extractLsb'_of_digit 8 4 ?_),
    BitVec.eq_of_toNat_eq (toNat_extractLsb'_of_digit (m := 0) 12 4 ?_),
    toNat_extractLsb'_of_digit (m := ksWords s) 16 8 ?_, toNat_extractLsb'_of_digit 24 5 ?_,
    BitVec.eq_of_toNat_eq (toNat_extractLsb'_of_digit (m := 0) 29 3 ?_), fun v => hostWrite_status v s⟩
  all_goals rw [hn]; omega

/-! ### The sequencing registers are invisible (R39, U1) -/

/-- What a command leaves unspecified: the four sequencing registers, and the model's counter of free values. -/
structure Sequencers where
  ksi : BitVec 6
  temp : Word
  rcon : Byte
  round : BitVec 4
  freeIdx : Nat

/-- The values a draw leaves when the counter stands at `n` (log entry 1). -/
def Sequencers.drawn (n : Nat) : Sequencers :=
  ⟨Config.freeKsi n, Config.freeTemp n, Config.freeRcon n, Config.freeRound n, n + 1⟩

/-- `s` with other contents of the sequencing registers. -/
def State.withSequencers (s : State) (q : Sequencers) : State :=
  { s with ksi := q.ksi, temp := q.temp, rcon := q.rcon, round := q.round, freeIdx := q.freeIdx }

/-- The second outcome is the first up to the sequencing registers, if the first is a next state. -/
def AgreesUpToSequencers (o o' : Host.Outcome State Fault Refusal) : Prop :=
  ∀ t, o = .next t → ∃ q, o' = .next (t.withSequencers q)

theorem agrees_next (t : State) (q : Sequencers) : AgreesUpToSequencers (.next t) (.next (t.withSequencers q)) := by
  intro u h
  injection h with h
  exact ⟨q, h ▸ rfl⟩

theorem agrees_ite {p : Prop} [Decidable p] {a a' b b' : Host.Outcome State Fault Refusal}
    (ha : AgreesUpToSequencers a a') (hb : AgreesUpToSequencers b b') :
    AgreesUpToSequencers (if p then a else b) (if p then a' else b') := by
  by_cases hp : p
  · rw [if_pos hp, if_pos hp]; exact ha
  · rw [if_neg hp, if_neg hp]; exact hb

section

variable (s : State) (q : Sequencers)

/-- An error leaves the registers alone (R263). -/
theorem agrees_fail (c : ErrCode) :
    AgreesUpToSequencers (.next (s.fail c)) (.next ((s.withSequencers q).fail c)) :=
  agrees_next (s.fail c) q

/-- After a draw the registers depend on the counter alone. -/
theorem agrees_sequencersFree :
    AgreesUpToSequencers (.next s.sequencersFree) (.next (s.withSequencers q).sequencersFree) :=
  agrees_next s.sequencersFree (.drawn q.freeIdx)

theorem agrees_toReset : AgreesUpToSequencers (.next s.toReset) (.next (s.withSequencers q).toReset) :=
  agrees_next s.toReset (.drawn q.freeIdx)

theorem execInit_agrees (len : BitVec 6) (kb : BitVec 9) :
    AgreesUpToSequencers (execInit len kb s) (execInit len kb (s.withSequencers q)) := by
  unfold execInit
  refine agrees_ite (agrees_fail s q _) ?_
  cases requestedVariant kb with
  | none => exact agrees_fail s.clearKS q _
  | some v =>
    exact agrees_ite (agrees_fail s.clearKS q _) (agrees_sequencersFree (s.loadKey v).emitNothing q)

theorem execEcbEnc_agrees : AgreesUpToSequencers (execEcbEnc s) (execEcbEnc (s.withSequencers q)) :=
  agrees_ite (agrees_fail s q _) (agrees_sequencersFree _ q)

theorem execEcbDec_agrees : AgreesUpToSequencers (execEcbDec s) (execEcbDec (s.withSequencers q)) :=
  agrees_ite (agrees_fail s q _) (agrees_sequencersFree _ q)

theorem execEncStart_agrees : AgreesUpToSequencers (execEncStart s) (execEncStart (s.withSequencers q)) :=
  agrees_ite (agrees_fail s q _) (agrees_sequencersFree _ q)

theorem execEncBlock_agrees : AgreesUpToSequencers (execEncBlock s) (execEncBlock (s.withSequencers q)) :=
  agrees_ite (agrees_fail s q _) <| agrees_ite (agrees_fail s q _) (agrees_sequencersFree _ q)

theorem execEncFinal_agrees (len : BitVec 6) :
    AgreesUpToSequencers (execEncFinal len s) (execEncFinal len (s.withSequencers q)) :=
  agrees_ite (agrees_fail s q _) <| agrees_ite (agrees_fail s q _) <| agrees_ite (agrees_fail s q _) <|
    agrees_sequencersFree _ q

theorem execDecStart_agrees (len : BitVec 6) :
    AgreesUpToSequencers (execDecStart len s) (execDecStart len (s.withSequencers q)) :=
  agrees_ite (agrees_fail s q _) <| agrees_ite (agrees_fail s q _) <| agrees_ite (agrees_fail _ q _) <|
    agrees_sequencersFree _ q

theorem execDecBlock_agrees : AgreesUpToSequencers (execDecBlock s) (execDecBlock (s.withSequencers q)) :=
  agrees_ite (agrees_fail s q _) <| agrees_ite (agrees_fail s q _) (agrees_sequencersFree _ q)

theorem execDecFinal_agrees (len : BitVec 6) :
    AgreesUpToSequencers (execDecFinal len s) (execDecFinal len (s.withSequencers q)) :=
  agrees_ite (agrees_fail s q _) <| agrees_ite (agrees_fail s q _) <| agrees_ite (agrees_fail s q _) <|
    agrees_ite (agrees_fail _ q _) <| agrees_ite (agrees_sequencersFree _ q) (agrees_sequencersFree _ q)

theorem exec_agrees (i : Instr) : AgreesUpToSequencers (exec i s) (exec i (s.withSequencers q)) := by
  cases i with
  | nop len kb => exact agrees_next s q
  | init len kb => exact execInit_agrees s q len kb
  | ecbEnc len kb => exact execEcbEnc_agrees s q
  | ecbDec len kb => exact execEcbDec_agrees s q
  | encStart len kb => exact execEncStart_agrees s q
  | encBlock len kb => exact execEncBlock_agrees s q
  | encFinal len kb => exact execEncFinal_agrees s q len
  | decStart len kb => exact execDecStart_agrees s q len
  | decBlock len kb => exact execDecBlock_agrees s q
  | decFinal len kb => exact execDecFinal_agrees s q len
  | reset len kb => exact agrees_toReset s q

theorem perform_agrees (w : Word) : AgreesUpToSequencers (perform w s) (perform w (s.withSequencers q)) := by
  cases hd : decode w with
  | ok i => rw [perform_ok hd, perform_ok hd]; exact exec_agrees s q i
  | error e => rw [perform_error hd, perform_error hd]; exact agrees_fail s q _

theorem hostWrite_agrees (i : Index) (v : Word) :
    AgreesUpToSequencers (hostWrite i v s) (hostWrite i v (s.withSequencers q)) := by
  unfold hostWrite
  cases portReg i with
  | ctrl => exact perform_agrees s q v
  | key j => exact agrees_next { s with keybuf := s.keybuf.set j v } q
  | iv j => exact agrees_next { s with iv := s.iv.set j v } q
  | din j => exact agrees_next { s with din := s.din.set j v } q
  | _ => exact agrees_next s q

/-- No host read shows the registers. -/
theorem hostRead_withSequencers (i : Index) : hostRead i (s.withSequencers q) = hostRead i s := by
  unfold hostRead
  cases portReg i <;> rfl

theorem access_agrees (a : Access) : AgreesUpToSequencers (access a s) (access a (s.withSequencers q)) := by
  unfold access
  refine agrees_ite nofun ?_
  cases a with
  | read i =>
    dsimp only
    rw [hostRead_withSequencers]
    exact agrees_next { s with replies := hostRead i s :: s.replies } q
  | write i v => exact hostWrite_agrees s q i v
  | hardwareReset => exact agrees_toReset s q

theorem step_agrees : AgreesUpToSequencers (step s) (step (s.withSequencers q)) := by
  cases hp : s.pending with
  | nil => rw [step_nil hp, step_nil (s := s.withSequencers q) hp]; exact agrees_next s q
  | cons a rest =>
    rw [step_cons hp, step_cons (s := s.withSequencers q) hp]
    exact access_agrees { s with pending := rest } q a

end

/-- Settles O56: each command branches on other fields alone, so its outcomes agree branch by branch. -/
theorem sequencersAreInvisible : Obligations.SequencersAreInvisible := by
  intro s t k tm rc rd n h
  obtain ⟨q, hq⟩ := step_agrees s ⟨k, tm, rc, rd, n⟩ t h
  exact ⟨q.ksi, q.temp, q.rcon, q.round, q.freeIdx, hq⟩

end Sys2Proof.Machine
end

section
namespace Sys2Proof.Machine

/-- A step whose next access is a read, with `BUSY = 0` (R67, R246). -/
theorem step_read {s : State} {i : Index} {rest : List Access} (hb : s.busy = false) (h : s.pending = .read i :: rest) :
    step s = .next { s with pending := rest, replies := hostRead i s :: s.replies } := by
  have hread : hostRead i { s with pending := rest } = hostRead i s := hostRead_host i s rest s.replies
  rw [step_cons h, access_read (s := { s with pending := rest }) hb, hread]

/-- Settles O50: the read returns what it would before the access was taken off, and only records that value. -/
theorem readsHaveNoSideEffects : Obligations.ReadsHaveNoSideEffects :=
  fun _ _ _ => step_read

end Sys2Proof.Machine
end

section
/-! PROOFS. The statements about command words (30_encoding.md): the decoder's three outcomes, the two round trips, the
opcode map, a write of an illegal word, and the bytes `ENC_FINAL` does not look at. -/

namespace Sys2Proof

/-! ### The decoder, once per outcome (R82) -/

section

variable {w : Word}

theorem decode_of_reservedBit (hm : w &&& reservedMask ≠ 0#32) : decode w = .error .reservedBit :=
  if_pos hm

theorem decode_of_instrOfOp_none (hm : w &&& reservedMask = 0#32)
    (hi : instrOfOp (opField w) (lenField w) (keybitsField w) = none) : decode w = .error .reservedOp := by
  unfold decode
  rw [if_neg (not_not_intro hm), hi]

/-- A word that holds a command's fields and no reserved bit is that command, if its `LEN` is in range. -/
theorem decode_of_fields {i : Instr} (hm : w &&& reservedMask = 0#32) (hop : opField w = i.op)
    (hlen : lenField w = i.len) (hkb : keybitsField w = i.keybits) :
    decode w = if i.wellFormed then .ok i else .error .lenOutOfRange := by
  unfold decode
  rw [if_neg (not_not_intro hm), hop, hlen, hkb, instrOfOp_self]

end

/-- `OP` 0xA to 0xE select no command (R88). -/
theorem instrOfOp_reserved {op : BitVec 4} (h : 0xA ≤ op.toNat ∧ op.toNat ≤ 0xE) (len : BitVec 6) (kb : BitVec 9) :
    instrOfOp op len kb = none := by
  unfold instrOfOp
  split
  case h_12 => rfl
  all_goals omega

/-! ### The two round trips (R81, R82) -/

/-- Settles O2: the word of a command holds its fields and no reserved bit. -/
theorem decodeEncodeRoundTrip : Obligations.DecodeEncodeRoundTrip := by
  intro i hwf
  obtain ⟨hm, hop, hlen, hkb⟩ := Laws.EncodeFields.of_packWord i
  rw [decode_of_fields hm hop hlen hkb, if_pos hwf]

/-- Settles O3: the command has the word's own fields, and without a reserved bit these are the whole word. -/
theorem encodeDecodeRoundTrip : Obligations.EncodeDecodeRoundTrip := by
  intro w i h
  obtain ⟨hm, hi, hwf⟩ := decode_ok h
  obtain ⟨hop, hlen, hkb⟩ := instrOfOp_fields hi
  refine ⟨hwf, ?_⟩
  rw [encode, hop, hlen, hkb, packWord_fields w hm]

/-! ### The opcode map (R83, R84) -/

theorem toNat_opField (w : Word) : (opField w).toNat = w.toNat % 16 :=
  Machine.toNat_extractLsb'_of_digit 0 4 (by omega)

theorem toNat_lenField (w : Word) : (lenField w).toNat = w.toNat / 256 % 64 :=
  Machine.toNat_extractLsb'_of_digit 8 6 rfl

theorem toNat_keybitsField (w : Word) : (keybitsField w).toNat = w.toNat / 65536 % 512 :=
  Machine.toNat_extractLsb'_of_digit 16 9 rfl

section

variable {w : Word} {i : Instr} (hm : w &&& reservedMask = 0#32) (hlen : i.len.toNat = w.toNat / 256 % 64)
  (hkb : i.keybits.toNat = w.toNat / 65536 % 512) (hop : w.toNat % 16 = i.op.toNat)
include hm hlen hkb hop

/-- `decode_of_fields` with the fields read off the word's number. -/
theorem decode_of_toNat : decode w = if i.wellFormed then .ok i else .error .lenOutOfRange :=
  decode_of_fields hm (BitVec.eq_of_toNat_eq ((toNat_opField w).trans hop))
    (BitVec.eq_of_toNat_eq ((toNat_lenField w).trans hlen.symm))
    (BitVec.eq_of_toNat_eq ((toNat_keybitsField w).trans hkb.symm))

/-- The same for a command whose `LEN` is at most `n` (R84). -/
theorem decode_of_toNat_ranged (n : Nat) (hwf : i.wellFormed = decide (i.len.toNat ≤ n)) :
    decode w = if w.toNat / 256 % 64 ≤ n then .ok i else .error .lenOutOfRange := by
  rw [decode_of_toNat hm hlen hkb hop, hwf, hlen]
  exact if_congr decide_eq_true_iff rfl rfl

end

/-- Settles O4: the word's number gives the three fields, and each `OP` selects its command. -/
theorem decodeIsTheOpcodeMap : Obligations.DecodeIsTheOpcodeMap := by
  refine fun w => ⟨decode_of_reservedBit, ?_⟩
  rintro hm _ _ _ rfl rfl rfl l b hl hb
  exact ⟨decode_of_toNat (i := .nop l b) hm hl hb,
    (decode_of_toNat_ranged (i := .init l b) hm hl hb · 32 rfl),
    decode_of_toNat (i := .ecbEnc l b) hm hl hb,
    decode_of_toNat (i := .ecbDec l b) hm hl hb,
    decode_of_toNat (i := .encStart l b) hm hl hb,
    decode_of_toNat (i := .encBlock l b) hm hl hb,
    (decode_of_toNat_ranged (i := .encFinal l b) hm hl hb · 15 rfl),
    (decode_of_toNat_ranged (i := .decStart l b) hm hl hb · 16 rfl),
    decode_of_toNat (i := .decBlock l b) hm hl hb,
    (decode_of_toNat_ranged (i := .decFinal l b) hm hl hb · 16 rfl),
    decode_of_toNat (i := .reset l b) hm hl hb,
    fun h => decode_of_instrOfOp_none hm (instrOfOp_reserved (by rwa [toNat_opField]) _ _)⟩

/-- Settles O1 by running the decoder on each word. -/
theorem exampleWordsDecode : Obligations.ExampleWordsDecode := by
  unfold Obligations.ExampleWordsDecode
  decide

end Sys2Proof

namespace Sys2Proof.Machine

/-- Settles O5: with `BUSY = 0` the write is made, and performing the word is one call of `fail`. -/
theorem illegalWordChangesOnlyTheStatus : Obligations.IllegalWordChangesOnlyTheStatus := by
  intro w e s hb hd
  rw [access_write hb, hostWrite_ctrl, perform_error hd]
  rfl

/-! ### `ENC_FINAL` looks at `LEN` bytes of `DIN` (R86, U14) -/

/-- Padding keeps the first `n` bytes alone. -/
theorem pad_congr {a b : Block} {n : Nat} (h : ∀ i : Fin 16, i.val < n → a[i] = b[i]) : pad a n = pad b n := by
  apply Vector.ext
  intro i hi
  rw [getElem_pad, getElem_pad]
  exact if_ctx_congr Iff.rfl (h ⟨i, hi⟩) fun _ => rfl

/-- `ENC_FINAL` reads `DIN` through the padded block, and leaves it as it is. -/
theorem execEncFinal_din {s t : State} {d : Vector Word 4} {len : BitVec 6}
    (hpad : pad (wordsBlock d) len.toNat = pad (inputBlock s) len.toNat) (h : execEncFinal len s = .next t) :
    execEncFinal len { s with din := d } = .next { t with din := d } := by
  unfold execEncFinal
  dsimp only [inputBlock] at hpad ⊢
  rw [hpad]
  obtain ⟨hl, rfl⟩ | ⟨hl, hk, rfl⟩ | ⟨hl, hk, hs, rfl⟩ | ⟨hl, hk, hs, c, rfl, rfl⟩ := execEncFinal_cases h
  · rw [if_pos hl]; rfl
  · rw [if_neg (Nat.not_lt.mpr hl), if_pos hk]; rfl
  · rw [if_neg (Nat.not_lt.mpr hl), if_neg (by simp [hk]), if_pos hs]; rfl
  · rw [if_neg (Nat.not_lt.mpr hl), if_neg (by simp [hk]), if_neg (not_not_intro hs)]; rfl

/-- Settles O38: blocks that agree below `LEN` have one padded block. -/
theorem encFinalIgnoresBytesBeyondLen : Obligations.EncFinalIgnoresBytesBeyondLen := by
  intro s t t' d len kb hd h h'
  have hrun : execEncFinal len { s with din := d } = .next { t with din := d } := execEncFinal_din (pad_congr hd) h
  exact Host.Outcome.next.inj (h'.symm.trans hrun)

end Sys2Proof.Machine
end

section
/-! PROOFS. The statements about the GF(2^8) multiplier and the S-Box ROMs (40_gf_sbox.md). -/

namespace Sys2Proof.Machine

/-! ### Multiplication (R100, R101) -/

theorem xtime_zero : xtime 0#8 = 0#8 := by decide

/-- Every byte is a sum of doublings of 1, so what sums and doublings keep holds of every byte. -/
theorem byte_induction {P : Byte → Prop} (zero : P 0#8) (one : P 1#8) (double : ∀ b, P b → P (xtime b))
    (add : ∀ x y, P x → P y → P (x ^^^ y)) (b : Byte) : P b := by
  have summand (c : Bool) {t : Byte} (ht : P t) : P (pick c t) := by
    cases c
    · exact zero
    · exact ht
  have h2 : P 2#8 := double _ one
  have h4 : P 4#8 := double _ h2
  have h8 : P 8#8 := double _ h4
  have h16 : P 16#8 := double _ h8
  have h32 : P 32#8 := double _ h16
  have h64 : P 64#8 := double _ h32
  have h128 : P 128#8 := double _ h64
  rw [byte_eq_sum_bits b]
  exact add _ _ (add _ _ (add _ _ (add _ _ (add _ _ (add _ _ (add _ _ (summand _ one) (summand _ h2)) (summand _ h4))
    (summand _ h8)) (summand _ h16)) (summand _ h32)) (summand _ h64)) (summand _ h128)

theorem gmul_one_left (b : Byte) : gmul 1#8 b = b :=
  (gmul_unfold 1#8 b).trans (byte_eq_sum_bits b).symm

theorem gmul_one_right (a : Byte) : gmul a 1#8 = a := by
  simp [gmul_unfold]

theorem gmul_xtime_left (a b : Byte) : gmul (xtime a) b = xtime (gmul a b) := by
  simp only [gmul_unfold, xtime_xor, xtime_pick]

/-- By induction on the other factor, so that the reduction by 0x1B is never looked at. -/
theorem gmul_xtime_right (a b : Byte) : gmul a (xtime b) = xtime (gmul a b) := by
  induction a using byte_induction with
  | zero => simp only [gmul_zero_left, xtime_zero]
  | one => simp only [gmul_one_left]
  | double a ih => simp only [gmul_xtime_left, ih]
  | add x y hx hy => simp only [gmul_xor_left, xtime_xor, hx, hy]

theorem gmul_comm (a b : Byte) : gmul a b = gmul b a := by
  induction b using byte_induction with
  | zero => rw [gmul_zero_left, gmul_zero_right]
  | one => rw [gmul_one_left, gmul_one_right]
  | double b ih => rw [gmul_xtime_left, gmul_xtime_right, ih]
  | add x y hx hy => rw [gmul_xor_left, gmul_xor_right, hx, hy]

theorem gmul_assoc (a b c : Byte) : gmul (gmul a b) c = gmul a (gmul b c) := by
  induction c using byte_induction with
  | zero => simp only [gmul_zero_right]
  | one => simp only [gmul_one_right]
  | double c ih => simp only [gmul_xtime_right, ih]
  | add x y hx hy => simp only [gmul_xor_right, hx, hy]

/-- Settles O9, by induction on one factor. -/
theorem gmulCommutesAndAssociates : Obligations.GmulCommutesAndAssociates :=
  ⟨gmul_comm, gmul_assoc⟩

theorem getLsbD_seven (b : Byte) : b.getLsbD 7 = decide (128 ≤ b.toNat) :=
  BitVec.msb_eq_decide b

theorem xtime_toNat_of_lt {b : Byte} (h : b.toNat < 128) : (xtime b).toNat = 2 * b.toNat := by
  have hbit : b.getLsbD 7 = false := by rw [getLsbD_seven]; exact decide_eq_false (by omega)
  rw [xtime, hbit, if_neg Bool.false_ne_true, BitVec.xor_zero, BitVec.toNat_shiftLeft, Nat.shiftLeft_eq]
  omega

theorem xtime_toNat_of_le {b : Byte} (h : 128 ≤ b.toNat) : (xtime b).toNat = (2 * b.toNat - 256) ^^^ 0x1B := by
  have hbit : b.getLsbD 7 = true := by rw [getLsbD_seven]; exact decide_eq_true h
  have hshift : (b <<< 1).toNat = 2 * b.toNat - 256 := by
    have := b.isLt
    rw [BitVec.toNat_shiftLeft, Nat.shiftLeft_eq]
    omega
  rw [xtime, hbit, if_pos rfl, BitVec.toNat_xor, hshift]
  rfl

/-- Settles O7: the high bit says on which side of 128 the byte lies. -/
theorem xtimeDoubles : Obligations.XtimeDoubles :=
  ⟨fun _ => ⟨xtime_toNat_of_lt, xtime_toNat_of_le⟩, by decide⟩

theorem gmul_two (a : Byte) : gmul a 0x02#8 = xtime a :=
  (gmul_xtime_right a 1#8).trans (congrArg xtime (gmul_one_right a))

theorem gmul_four (a : Byte) : gmul a 0x04#8 = xtime (xtime a) :=
  (gmul_xtime_right a 0x02#8).trans (congrArg xtime (gmul_two a))

theorem gmul_eight (a : Byte) : gmul a 0x08#8 = xtime (xtime (xtime a)) :=
  (gmul_xtime_right a 0x04#8).trans (congrArg xtime (gmul_four a))

/-- Settles O8: each constant is a sum of 8, 4, 2 and 1, and multiplication distributes over it. -/
theorem gmulByTheMatrixConstants : Obligations.GmulByTheMatrixConstants := by
  refine ⟨fun a => ⟨gmul_one_right a, gmul_two a, ?_, ?_, ?_, ?_, ?_, gmul_zero_left a, gmul_zero_right a⟩, by decide⟩
  · rw [show 0x03#8 = 0x02#8 ^^^ 0x01#8 by decide, gmul_xor_right, gmul_two, gmul_one_right]
  · rw [show 0x09#8 = 0x08#8 ^^^ 0x01#8 by decide, gmul_xor_right, gmul_eight, gmul_one_right]
  · rw [show 0x0B#8 = 0x08#8 ^^^ 0x02#8 ^^^ 0x01#8 by decide, gmul_xor_right, gmul_xor_right, gmul_eight, gmul_two,
      gmul_one_right]
  · rw [show 0x0D#8 = 0x08#8 ^^^ 0x04#8 ^^^ 0x01#8 by decide, gmul_xor_right, gmul_xor_right, gmul_eight, gmul_four,
      gmul_one_right]
  · rw [show 0x0E#8 = 0x08#8 ^^^ 0x04#8 ^^^ 0x02#8 by decide, gmul_xor_right, gmul_xor_right, gmul_eight, gmul_four,
      gmul_two]

/-! ### The S-Box ROMs (R104 to R106) -/

/-- By evaluation of the two tables: their 256 entries are data. -/
theorem invSbox_sbox (x : Byte) : invSbox (sbox x) = x := by revert x; decide +kernel

/-- A left inverse on a finite set is a right inverse. -/
theorem sbox_invSbox (y : Byte) : sbox (invSbox y) = y :=
  have hinv : Function.LeftInverse invSbox sbox := invSbox_sbox
  hinv.rightInverse_of_surjective (Finite.surjective_of_injective hinv.injective) y

/-- Settles O10. -/
theorem sboxesAreMutualInverses : Obligations.SboxesAreMutualInverses :=
  ⟨invSbox_sbox, sbox_invSbox⟩

/-- The affine map of R104. -/
def affine (b : Byte) : Byte :=
  b ^^^ b.rotateLeft 1 ^^^ b.rotateLeft 2 ^^^ b.rotateLeft 3 ^^^ b.rotateLeft 4 ^^^ 0x63#8

/-- The inverse of `affine`: of an S-Box entry, the field inverse it was made from. -/
def affinePreimage (y : Byte) : Byte :=
  y.rotateLeft 1 ^^^ y.rotateLeft 3 ^^^ y.rotateLeft 6 ^^^ 0x05#8

theorem affine_affinePreimage (y : Byte) : affine (affinePreimage y) = y := by revert y; decide +kernel

theorem affinePreimage_sbox_zero : affinePreimage (sbox 0#8) = 0#8 := by decide +kernel

/-- By evaluation of the table, as in `invSbox_sbox`. -/
theorem gmul_affinePreimage_sbox (x : Byte) : x ≠ 0#8 → gmul x (affinePreimage (sbox x)) = 1#8 := by
  revert x; decide +kernel

theorem sbox_ne_self (x : Byte) : sbox x ≠ x := by revert x; decide +kernel

/-- Settles O11: the inverse of `x` is what the affine map takes to its entry. -/
theorem sboxIsAffineInverse : Obligations.SboxIsAffineInverse := by
  refine fun x => ⟨⟨affinePreimage (sbox x), ?_, gmul_affinePreimage_sbox x, (affine_affinePreimage (sbox x)).symm⟩,
    sbox_ne_self x⟩
  rintro rfl
  exact affinePreimage_sbox_zero

end Sys2Proof.Machine
end

section
/-! PROOFS. The statements about the key schedule (41_key_schedule.md): the word primitives, the recurrence of the
expanded key, the outcomes of `INIT`, and what may change the schedule. -/

namespace Sys2Proof.Machine

/-! ### The word primitives (R131, R132) -/

/-- Rotation as a number: the top byte moves to the bottom and the others move up by one (R131). -/
theorem rotWord_toNat (w : Word) : (rotWord w).toNat = w.toNat * 256 % 2 ^ 32 + w.toNat / 2 ^ 24 := by
  have hw := w.isLt
  have hhigh : w.toNat * 256 % 2 ^ 32 = (w.toNat % 2 ^ 24) <<< 8 := by rw [Nat.shiftLeft_eq]; omega
  rw [rotWord, BitVec.toNat_or, BitVec.toNat_shiftLeft, BitVec.toNat_ushiftRight, Nat.shiftRight_eq_div_pow,
    Nat.shiftLeft_eq, hhigh, Nat.shiftLeft_add_eq_or_of_lt (by omega)]

theorem rotWord_word (a b c d : Byte) : rotWord (word a b c d) = word b c d a := by
  have ha := a.isLt; have hb := b.isLt; have hc := c.isLt; have hd := d.isLt
  apply BitVec.eq_of_toNat_eq
  rw [rotWord_toNat, word_toNat, word_toNat]
  omega

theorem subWord_word (a b c d : Byte) : subWord (word a b c d) = word (sbox a) (sbox b) (sbox c) (sbox d) := by
  have hbyte : ∀ k, byteOf (word a b c d) k = ![a, b, c, d] k := byteOf_word ![a, b, c, d]
  simp only [subWord, hbyte]
  rfl

/-- Byte `k` of word `j` of a block's register group is byte `4j + k` of the block (R62, R86). -/
theorem byteOf_getElem_blockWords (b : Block) (j k : Fin 4) :
    byteOf (blockWords b)[j] k = b[4 * j.val + k.val]'(by omega) := by
  simpa only [wordsBlock_blockWords] using (getElem_wordsBlock (blockWords b) j k).symm

/-- Settles O19: rotation by the word's number, substitution by its bytes. -/
theorem wordPrimitives : Obligations.WordPrimitives :=
  ⟨fun a b c d => ⟨word_toNat a b c d, rotWord_word a b c d, subWord_word a b c d⟩,
    fun w => ⟨rotWord_toNat w, word_byteOf w⟩, getElem_wordsBlock, byteOf_getElem_blockWords,
    by decide, by decide, by decide, by decide⟩

/-! ### The recurrence (R134) -/

section

variable {nk : Nat} (hpos : 0 < nk) (hfits : 4 * (nk + 7) ≤ 60) (key : List Byte)
include hpos hfits

/-- The unit after its whole loop: the invariant holds, `4·(Nr+1)` words are made, and the key's words stand. -/
theorem expandKey_inv : ∃ e, expandKey nk key = e.w ∧ ExpanderInv nk e ∧ e.ksi = 4 * (nk + 7)
    ∧ ∀ i < nk, ksWord e.w i = ksWord (expanderInit nk key).w i := by
  have hksi : (expanderInit nk key).ksi = nk := rfl
  obtain ⟨hinv, hend, hkept⟩ := expanderInv_loop nk hpos (4 * (nk + 7) - nk) (expanderInit nk key)
    (expanderInv_init nk hpos key) (by omega)
  exact ⟨_, rfl, hinv, by omega, hkept⟩

theorem ksWord_expandKey_of_lt {i : Nat} (hi : i < nk) : ksWord (expandKey nk key) i =
    word (key.getD (4 * i) 0#8) (key.getD (4 * i + 1) 0#8) (key.getD (4 * i + 2) 0#8) (key.getD (4 * i + 3) 0#8) := by
  obtain ⟨e, he, -, -, hkept⟩ := expandKey_inv hpos hfits key
  have h60 : i < 60 := by omega
  rw [he, hkept i hi]
  simp [ksWord, expanderInit, h60, hi]

theorem ksWord_expandKey_recurrence {i : Nat} (hi : nk ≤ i) (hlt : i < 4 * (nk + 7)) :
    ksWord (expandKey nk key) i = ksWord (expandKey nk key) (i - nk)
      ^^^ expandTemp nk i (roundConst (i / nk)) (ksWord (expandKey nk key) (i - 1)) := by
  obtain ⟨e, he, hinv, hend, -⟩ := expandKey_inv hpos hfits key
  rw [he]
  exact hinv.recurrence i hi (by omega) (by omega)

theorem ksWord_expandKey_rest {i : Nat} (hi : 4 * (nk + 7) ≤ i) : ksWord (expandKey nk key) i = 0#32 := by
  obtain ⟨e, he, hinv, hend, -⟩ := expandKey_inv hpos hfits key
  rw [he]
  exact hinv.rest i (by omega)

end

section

variable {nk i : Nat} (rcon : Byte) (temp : Word)

theorem expandTemp_of_mod_eq_zero (h : i % nk = 0) :
    expandTemp nk i rcon temp = subWord (rotWord temp) ^^^ rconWord rcon := if_pos h

theorem expandTemp_of_mod_eq_four (hnk : 6 < nk) (h : i % nk = 4) : expandTemp nk i rcon temp = subWord temp := by
  rw [expandTemp, if_neg (by omega), if_pos ⟨hnk, h⟩]

theorem expandTemp_of_other (h0 : i % nk ≠ 0) (h4 : ¬(6 < nk ∧ i % nk = 4)) : expandTemp nk i rcon temp = temp := by
  rw [expandTemp, if_neg h0, if_neg h4]

end

/-- Every variant has key words, and its schedule fits the RAM (R3, R37). -/
theorem Variant.keyWords_bounds (v : Variant) : 0 < v.keyWords.val ∧ 4 * (v.keyWords.val + 7) ≤ 60 := by
  cases v <;> decide

/-- Settles O20: the loop invariant at the loop's end, read word by word. -/
theorem expansionFollowsTheRecurrence : Obligations.ExpansionFollowsTheRecurrence := by
  refine ⟨by decide, fun v key nk hnk hlen w hw => ?_⟩
  obtain ⟨hpos, hfits⟩ := hnk ▸ v.keyWords_bounds
  obtain rfl : w = ksWord (expandKey nk key) := funext hw
  refine ⟨fun i hi hl => ?_, fun i hi hlt => ?_, fun i hi _ => ksWord_expandKey_rest hpos hfits key hi⟩
  · rw [ksWord_expandKey_of_lt hpos hfits key hi]
    simp (disch := omega) only [List.getD_eq_getElem]
  · have hrec := ksWord_expandKey_recurrence hpos hfits key hi hlt
    refine ⟨fun h => ?_, fun hbig h => ?_, fun h0 h4 => ?_⟩
    · rwa [expandTemp_of_mod_eq_zero _ _ h] at hrec
    · rwa [expandTemp_of_mod_eq_four _ _ hbig h] at hrec
    · rwa [expandTemp_of_other _ _ h0 h4] at hrec

/-! ### `INIT` (R136) -/

/-- `INIT` with a legal `LEN` and a supported variant (R136). -/
theorem execInit_of_variant {len : BitVec 6} {kb : BitVec 9} {v : Variant} (hl : len.toNat ≤ 32)
    (hv : requestedVariant kb = some v) (s : State) : execInit len kb s =
      if len.toNat < 4 * v.keyWords.val then .next (s.clearKS.fail .invalidKeyLength)
      else .next (s.loadKey v).emitNothing.sequencersFree := by
  rw [execInit, if_neg (Nat.not_lt.mpr hl), hv]

theorem execInit_of_no_variant {len : BitVec 6} {kb : BitVec 9} (hl : len.toNat ≤ 32)
    (hv : requestedVariant kb = none) (s : State) :
    execInit len kb s = .next (s.clearKS.fail .unsupportedVariant) := by
  rw [execInit, if_neg (Nat.not_lt.mpr hl), hv]

theorem execInit_of_len {len : BitVec 6} (hl : 32 < len.toNat) (kb : BitVec 9) (s : State) :
    execInit len kb s = .next (s.fail .illegalCommand) := if_pos hl

/-- Settles O21: one equation per outcome. -/
theorem initCommand : Obligations.InitCommand := by
  intro s len kb
  refine ⟨fun hl => execInit_of_len hl kb s,
    fun hl h1 h2 h3 => execInit_of_no_variant hl (requestedVariant_eq_none.mpr ⟨h1, h2, h3⟩) s,
    fun v hkb hlt => ?_, fun v hkb hle hl => ?_⟩
  · have hl : len.toNat ≤ 32 := by have := v.keyWords.isLt; omega
    exact (execInit_of_variant hl (requestedVariant_eq_some.mpr hkb) s).trans (if_pos hlt)
  · rw [← keyBytes_eq_map]
    exact ⟨_, _, _, _, _,
      (execInit_of_variant hl (requestedVariant_eq_some.mpr hkb) s).trans (if_neg (Nat.not_lt.mpr hle))⟩

/-- An `INIT` that ends without an error loaded the requested variant (R136). -/
theorem execInit_success {s t : State} {len : BitVec 6} {kb : BitVec 9} (h : execInit len kb s = .next t)
    (he : t.err = .none) :
    ∃ v, requestedVariant kb = some v ∧ t = (s.loadKey v).emitNothing.sequencersFree := by
  obtain ⟨-, rfl⟩ | ⟨-, -, rfl⟩ | ⟨v, -, -, -, rfl⟩ | ⟨v, -, hv, -, rfl⟩ := execInit_cases h
  · cases he
  · cases he
  · cases he
  · exact ⟨v, hv, rfl⟩

theorem Variant.rounds_eq (v : Variant) : v.rounds.val = v.keyWords.val + 6 := by
  cases v <;> rfl

/-- Settles O22: the state holds the requested variant, and each variant has its sizes. -/
theorem initSelectsTheVariant : Obligations.InitSelectsTheVariant := by
  intro s t len kb h he
  obtain ⟨v, hv, rfl⟩ := execInit_success h he
  refine ⟨rfl, (requestedVariant_eq_some.mp hv).symm, v.rounds_eq, ?_⟩
  cases v with
  | aes128 => exact .inl ⟨rfl, rfl⟩
  | aes192 => exact .inr (.inl ⟨rfl, rfl⟩)
  | aes256 => exact .inr (.inr ⟨rfl, rfl⟩)

/-- The first `4n` key bytes are those of the first `n` words of `KEYBUF` (R24). -/
theorem take_keyBytes_congr {s s' : State} {n : Nat} (h : ∀ j : Fin 8, j.val < n → s.keybuf[j] = s'.keybuf[j]) :
    (keyBytes s).take (4 * n) = (keyBytes s').take (4 * n) := by
  rw [keyBytes_eq_map, keyBytes_eq_map]
  refine List.ext_getElem (by simp) fun i hi _ => ?_
  simp only [List.length_take, List.length_map, List.length_finRange] at hi
  have hword : s.keybuf[i / 4]'(by omega) = s'.keybuf[i / 4]'(by omega) := h ⟨i / 4, by omega⟩ (by dsimp only; omega)
  simp [hword]

/-- Settles O23: both expand the same variant, from the same key bytes. -/
theorem initUsesOnlyItsKeyWords : Obligations.InitUsesOnlyItsKeyWords := by
  intro s s' t t' len len' kb h h' he he' hkey
  obtain ⟨v, hv, rfl⟩ := execInit_success h he
  obtain ⟨v', hv', rfl⟩ := execInit_success h' he'
  obtain rfl : v = v' := Option.some.inj (hv.symm.trans hv')
  have hkb := requestedVariant_eq_some.mp hv
  have hbytes := take_keyBytes_congr (n := v.keyWords.val) fun j hj => hkey j (by omega)
  exact congrArg (expandKey v.keyWords.val) hbytes

/-! ### What may change the schedule (R137) -/

/-- `KS`, `KS_VALID`, `NK` and `NR` are the same in both states. -/
def SameSchedule (s t : State) : Prop :=
  t.ks = s.ks ∧ t.ksValid = s.ksValid ∧ t.nk = s.nk ∧ t.nr = s.nr

/-- `INIT` and `RESET`, the commands that write the schedule (R137). -/
def WritesSchedule (i : Instr) : Prop := ∃ l k, i = .init l k ∨ i = .reset l k

/-- Every other command keeps the schedule, whatever its outcome. -/
theorem exec_schedule {i : Instr} {s t : State} (h : exec i s = .next t) : SameSchedule s t ∨ WritesSchedule i := by
  cases i with
  | init len kb => exact .inr ⟨len, kb, .inl rfl⟩
  | reset len kb => exact .inr ⟨len, kb, .inr rfl⟩
  | nop len kb => obtain rfl := execNop_cases h; exact .inl ⟨rfl, rfl, rfl, rfl⟩
  | ecbEnc len kb =>
    obtain ⟨-, rfl⟩ | ⟨-, rfl⟩ := execEcbEnc_cases h <;> exact .inl ⟨rfl, rfl, rfl, rfl⟩
  | ecbDec len kb =>
    obtain ⟨-, rfl⟩ | ⟨-, rfl⟩ := execEcbDec_cases h <;> exact .inl ⟨rfl, rfl, rfl, rfl⟩
  | encStart len kb =>
    obtain ⟨-, rfl⟩ | ⟨-, rfl⟩ := execEncStart_cases h <;> exact .inl ⟨rfl, rfl, rfl, rfl⟩
  | encBlock len kb =>
    obtain ⟨-, rfl⟩ | ⟨-, -, rfl⟩ | ⟨-, -, c, -, rfl⟩ := execEncBlock_cases h <;> exact .inl ⟨rfl, rfl, rfl, rfl⟩
  | encFinal len kb =>
    obtain ⟨-, rfl⟩ | ⟨-, -, rfl⟩ | ⟨-, -, -, rfl⟩ | ⟨-, -, -, c, -, rfl⟩ := execEncFinal_cases h <;>
      exact .inl ⟨rfl, rfl, rfl, rfl⟩
  | decStart len kb =>
    obtain ⟨-, rfl⟩ | ⟨-, -, rfl⟩ | ⟨-, -, rfl⟩ | ⟨-, -, rfl⟩ := execDecStart_cases h <;>
      exact .inl ⟨rfl, rfl, rfl, rfl⟩
  | decBlock len kb =>
    obtain ⟨-, rfl⟩ | ⟨-, -, rfl⟩ | ⟨-, -, o, -, rfl⟩ := execDecBlock_cases h <;> exact .inl ⟨rfl, rfl, rfl, rfl⟩
  | decFinal len kb =>
    obtain ⟨-, rfl⟩ | ⟨-, -, rfl⟩ | ⟨-, -, -, rfl⟩ | ⟨-, -, -, rfl⟩ |
      ⟨-, -, -, o, p, -, -, ⟨-, rfl⟩ | ⟨-, rfl⟩⟩ := execDecFinal_cases h <;> exact .inl ⟨rfl, rfl, rfl, rfl⟩

theorem perform_schedule {w : Word} {s t : State} (h : perform w s = .next t) :
    SameSchedule s t ∨ ∃ i, decode w = .ok i ∧ WritesSchedule i := by
  cases hd : decode w with
  | ok i =>
    rw [perform_ok hd] at h
    exact (exec_schedule h).imp_right fun hi => ⟨i, rfl, hi⟩
  | error e =>
    rw [perform_error hd] at h
    injection h with h
    exact .inl (h ▸ ⟨rfl, rfl, rfl, rfl⟩)

theorem hostWrite_schedule {i : Index} {v : Word} {s t : State} (h : hostWrite i v s = .next t) :
    SameSchedule s t ∨ (i = 0#7 ∧ ∃ c, decode v = .ok c ∧ WritesSchedule c) := by
  obtain ⟨hi, hp⟩ | ⟨j, -, rfl⟩ | ⟨j, -, rfl⟩ | ⟨j, -, rfl⟩ | ⟨-, rfl⟩ := hostWrite_cases h
  · exact (perform_schedule hp).imp_right fun hw => ⟨hi, hw⟩
  all_goals exact .inl ⟨rfl, rfl, rfl, rfl⟩

/-- Settles O24: only the three accesses that the statement names write the schedule. -/
theorem scheduleIsReadOnly : Obligations.ScheduleIsReadOnly := by
  intro s t h
  cases hp : s.pending with
  | nil =>
    rw [step_nil hp] at h
    injection h with h
    exact .inl (h ▸ ⟨rfl, rfl, rfl, rfl⟩)
  | cons a rest =>
    rw [step_cons hp] at h
    obtain ⟨i, rfl, rfl⟩ | ⟨i, v, rfl, -, hw⟩ | ⟨rfl, rfl⟩ := access_cases h
    · exact .inl ⟨rfl, rfl, rfl, rfl⟩
    · obtain hsame | ⟨rfl, c, hd, l, k, rfl | rfl⟩ := hostWrite_schedule hw
      · exact .inl hsame
      · exact .inr (.inr ⟨v, rest, l, k, rfl, .inl hd⟩)
      · exact .inr (.inr ⟨v, rest, l, k, rfl, .inr hd⟩)
    · exact .inr (.inl ⟨rest, rfl⟩)

end Sys2Proof.Machine
end

section
/-! PROOFS. The statements about the round primitives, the cipher engines and the ECB commands (42_block_transform.md). -/

namespace Sys2Proof.Machine

/-! ### The byte substitutions and the row shifts (R161 to R164) -/

@[simp] theorem invSubBytes_subBytes (s : Block) : invSubBytes (subBytes s) = s :=
  block_ext fun r c => by simp only [cell_invSubBytes, cell_subBytes, invSbox_sbox]

@[simp] theorem subBytes_invSubBytes (s : Block) : subBytes (invSubBytes s) = s :=
  block_ext fun r c => by simp only [cell_invSubBytes, cell_subBytes, sbox_invSbox]

@[simp] theorem invShiftRows_shiftRows (s : Block) : invShiftRows (shiftRows s) = s :=
  block_ext fun r c => by simp only [cell_invShiftRows, cell_shiftRows, sub_add_cancel]

@[simp] theorem shiftRows_invShiftRows (s : Block) : shiftRows (invShiftRows s) = s :=
  block_ext fun r c => by simp only [cell_invShiftRows, cell_shiftRows, add_sub_cancel_right]

/-- Settles O12: the shifts agree with the listed permutations in each of the 16 cells. -/
theorem rowShiftsArePermutations : Obligations.RowShiftsArePermutations := by
  refine fun s => ⟨block_ext fun r c => ?_, block_ext fun r c => ?_⟩
  · rw [cell_shiftRows]
    fin_cases r <;> fin_cases c <;> rfl
  · rw [cell_invShiftRows]
    fin_cases r <;> fin_cases c <;> rfl

/-! ### The column mixes as matrix products (R165, R166) -/

/-- The sum of products of a matrix row with a column, in GF(2^8). -/
def dot (m a : Fin 4 → Byte) : Byte :=
  gmul (m 0) (a 0) ^^^ gmul (m 1) (a 1) ^^^ gmul (m 2) (a 2) ^^^ gmul (m 3) (a 3)

/-- The circulant matrix `{02,03,01,01}` of R165: each row is the row above, rotated right by one. -/
def mixMatrix (r k : Fin 4) : Byte := ![0x02#8, 0x03#8, 0x01#8, 0x01#8] (k - r)

/-- The circulant matrix `{0E,0B,0D,09}` of R166. -/
def invMixMatrix (r k : Fin 4) : Byte := ![0x0E#8, 0x0B#8, 0x0D#8, 0x09#8] (k - r)

/-- The identity matrix over GF(2^8). -/
def unitMatrix (r k : Fin 4) : Byte := if r = k then 0x01#8 else 0x00#8

theorem mixColumn_eq_dot (a : Fin 4 → Byte) (r : Fin 4) :
    mixColumn (a 0) (a 1) (a 2) (a 3) r = dot (mixMatrix r) a := by
  fin_cases r <;> simp [mixColumn, dot, mixMatrix, gmul_one_left]

theorem invMixColumn_eq_dot (a : Fin 4 → Byte) (r : Fin 4) :
    invMixColumn (a 0) (a 1) (a 2) (a 3) r = dot (invMixMatrix r) a := by
  fin_cases r <;> rfl

theorem cell_mixColumns_eq_dot (s : Block) (r c : Fin 4) :
    cell (mixColumns s) r c = dot (mixMatrix r) fun k => cell s k c :=
  (cell_mixColumns s r c).trans (mixColumn_eq_dot (fun k => cell s k c) r)

theorem cell_invMixColumns_eq_dot (s : Block) (r c : Fin 4) :
    cell (invMixColumns s) r c = dot (invMixMatrix r) fun k => cell s k c :=
  (cell_invMixColumns s r c).trans (invMixColumn_eq_dot (fun k => cell s k c) r)

/-- The product with two matrices in turn is the product with their product. -/
theorem dot_dot (m : Fin 4 → Byte) (n : Fin 4 → Fin 4 → Byte) (a : Fin 4 → Byte) :
    dot m (fun j => dot (n j) a) = dot (fun k => dot m fun j => n j k) a := by
  simp only [dot, gmul_xor_left, gmul_xor_right, gmul_assoc]
  ac_rfl

theorem dot_unitMatrix (r : Fin 4) (a : Fin 4 → Byte) : dot (unitMatrix r) a = a r := by
  fin_cases r <;> simp [dot, unitMatrix, gmul_one_left, gmul_zero_left]

theorem dot_replicate (m : Fin 4 → Byte) (b : Byte) :
    dot m (fun _ => b) = gmul (m 0 ^^^ m 1 ^^^ m 2 ^^^ m 3) b := by
  simp only [dot, gmul_xor_left]

/-- The two matrices are inverse to each other. -/
theorem invMixMatrix_mul_mixMatrix (r k : Fin 4) :
    (dot (invMixMatrix r) fun j => mixMatrix j k) = unitMatrix r k := by
  revert r k; decide +kernel

theorem mixMatrix_mul_invMixMatrix (r k : Fin 4) :
    (dot (mixMatrix r) fun j => invMixMatrix j k) = unitMatrix r k := by
  revert r k; decide +kernel

theorem mixMatrix_row_sum (r : Fin 4) : mixMatrix r 0 ^^^ mixMatrix r 1 ^^^ mixMatrix r 2 ^^^ mixMatrix r 3 = 0x01#8 := by
  revert r; decide

@[simp] theorem invMixColumns_mixColumns (s : Block) : invMixColumns (mixColumns s) = s :=
  block_ext fun r c => by
    simp only [cell_invMixColumns_eq_dot, cell_mixColumns_eq_dot, dot_dot, invMixMatrix_mul_mixMatrix]
    exact dot_unitMatrix r _

@[simp] theorem mixColumns_invMixColumns (s : Block) : mixColumns (invMixColumns s) = s :=
  block_ext fun r c => by
    simp only [cell_invMixColumns_eq_dot, cell_mixColumns_eq_dot, dot_dot, mixMatrix_mul_invMixMatrix]
    exact dot_unitMatrix r _

/-- The coefficients of each row of the forward matrix add up to 1 (R165). -/
theorem mixColumn_replicate (b : Byte) (r : Fin 4) : mixColumn b b b b r = b := by
  rw [mixColumn_eq_dot fun _ => b, dot_replicate, mixMatrix_row_sum, gmul_one_left]

/-- Settles O15: the sums are the rows of `mixColumn` and `invMixColumn` at the column's cells. -/
theorem mixColumnExamples : Obligations.MixColumnExamples := by
  refine ⟨?_, mixColumn_replicate, by decide +kernel, by decide +kernel, by decide +kernel, by decide +kernel⟩
  rintro s c _ _ _ _ rfl rfl rfl rfl
  simp only [cell_mixColumns, cell_invMixColumns]
  exact ⟨rfl, rfl, rfl, rfl, rfl, rfl, rfl, rfl⟩

/-! ### All primitives (R160 to R167) -/

@[simp] theorem addRoundKey_addRoundKey (ks : Vector Word 60) (r : Nat) (s : Block) :
    addRoundKey ks r (addRoundKey ks r s) = s := xorBlock_xorBlock s (roundKey ks r)

/-- Settles O13: bytes by the mutually inverse ROMs, rows by opposite rotations, columns by inverse matrices. -/
theorem primitivesAreInvertible : Obligations.PrimitivesAreInvertible := fun s ks r =>
  ⟨invSubBytes_subBytes s, subBytes_invSubBytes s, invShiftRows_shiftRows s, shiftRows_invShiftRows s,
    invMixColumns_mixColumns s, mixColumns_invMixColumns s, addRoundKey_addRoundKey ks r s⟩

/-- Settles O14: the equation of each output cell names cells of its own lane only. -/
theorem primitivesKeepToTheirLanes : Obligations.PrimitivesKeepToTheirLanes := by
  refine ⟨fun s r c => ⟨cell_subBytes s r c, cell_invSubBytes s r c⟩, fun s t r c h => ?_, fun s t r h c => ?_,
    fun s t c h r => ?_⟩
  · simp only [cell_subBytes, cell_invSubBytes, cell_addRoundKey, h, implies_true, and_self]
  · simp only [cell_shiftRows, cell_invShiftRows, h, and_self]
  · simp only [cell_mixColumns, cell_invMixColumns, h, and_self]

/-! ### The engines (R171, R172, R175) -/

theorem cipherRounds_eq_foldl (ks : Vector Word 60) (n : Nat) (s : Block) :
    cipherRounds ks n s = (List.range n).foldl (fun t i => cipherRound ks (i + 1) t) s := by
  induction n with
  | zero => rfl
  | succ n ih => rw [List.range_succ, List.foldl_append, ← ih]; rfl

theorem invCipherRounds_eq_foldr (ks : Vector Word 60) (n : Nat) (s : Block) :
    invCipherRounds ks n s = (List.range n).foldr (fun i t => invCipherRound ks (i + 1) t) s := by
  induction n generalizing s with
  | zero => rfl
  | succ n ih => rw [List.range_succ, List.foldr_append, invCipherRounds, ih]; rfl

/-- Column `c` of round key `r` is word `4r + c` of the schedule (R138). -/
theorem cell_roundKey (ks : Vector Word 60) (r : Fin 15) (k c : Fin 4) :
    cell (roundKey ks r.val) k c = byteOf (ks[4 * r.val + c.val]'(by omega)) k := by
  have hword : ksWord ks (4 * r.val + c.val) = ks[4 * r.val + c.val]'(by omega) := by
    rw [ksWord, Vector.getElem?_eq_getElem, Option.getD_some]
  simp only [cell, roundKey, Vector.getElem_ofFn, rowOf_cell, colOf_cell, hword]

/-- Settles O16: the model's recursions are the folds, by induction on the number of rounds. -/
theorem enginesRunTheRounds : Obligations.EnginesRunTheRounds := by
  intro ks nr b
  refine ⟨?_, ?_, fun r c k => ?_⟩
  · rw [cipher, cipherRounds_eq_foldl]; rfl
  · rw [invCipher, invCipherRounds_eq_foldr]; rfl
  · rw [cell_addRoundKey, cell_roundKey]

/-- The inverse rounds take the forward rounds back. `SubBytes` and `ShiftRows` of the next round stand between them,
because each engine cuts its rounds at `AddRoundKey`. -/
theorem invCipherRounds_cipherRounds (ks : Vector Word 60) (n : Nat) (s : Block) :
    invCipherRounds ks n (shiftRows (subBytes (cipherRounds ks n s))) = shiftRows (subBytes s) := by
  induction n with
  | zero => rfl
  | succ n ih =>
    simp only [invCipherRounds, cipherRounds, invCipherRound, cipherRound, invShiftRows_shiftRows, invSubBytes_subBytes,
      addRoundKey_addRoundKey, invMixColumns_mixColumns, ih]

theorem cipherRounds_invCipherRounds (ks : Vector Word 60) (n : Nat) (s : Block) :
    cipherRounds ks n (invSubBytes (invShiftRows (invCipherRounds ks n s))) = invSubBytes (invShiftRows s) := by
  induction n generalizing s with
  | zero => rfl
  | succ n ih =>
    simp only [invCipherRounds, cipherRounds, invCipherRound, cipherRound, shiftRows_invShiftRows, subBytes_invSubBytes,
      addRoundKey_addRoundKey, mixColumns_invMixColumns, ih]

@[simp] theorem invCipher_cipher (ks : Vector Word 60) (nr : Nat) (b : Block) :
    invCipher ks nr (cipher ks nr b) = b := by
  simp only [invCipher, cipher, addRoundKey_addRoundKey, invCipherRounds_cipherRounds, invShiftRows_shiftRows,
    invSubBytes_subBytes]

@[simp] theorem cipher_invCipher (ks : Vector Word 60) (nr : Nat) (b : Block) :
    cipher ks nr (invCipher ks nr b) = b := by
  simp only [invCipher, cipher, addRoundKey_addRoundKey, cipherRounds_invCipherRounds, shiftRows_invShiftRows,
    subBytes_invSubBytes]

/-- Settles O17: each inverse step undoes its forward step in reverse order. -/
theorem ciphersAreMutualInverses : Obligations.CiphersAreMutualInverses := fun ks nr b =>
  ⟨invCipher_cipher ks nr b, cipher_invCipher ks nr b⟩

/-- Settles O18: the forward direction by evaluation, the other because the engines undo each other. -/
theorem fixedVectorHolds : Obligations.FixedVectorHolds := by
  intro key plain code hkey hplain hcode
  have hforward : cipher (expandKey 4 key.toList) 10 plain = code := by
    subst hkey hplain hcode
    decide +kernel
  exact ⟨hforward, hforward ▸ invCipher_cipher ..⟩

/-! ### The ECB commands (R173, R174) -/

theorem execEcbEnc_noKey {s : State} (h : s.ksValid = false) : execEcbEnc s = .next (s.fail .noKey) := if_pos h

theorem execEcbEnc_keyed {s : State} (h : s.ksValid = true) : execEcbEnc s =
    .next ({ s with state := cipher s.ks s.nr.val (inputBlock s) }.emit
      (cipher s.ks s.nr.val (inputBlock s)) 16).sequencersFree :=
  if_neg (by simp [h])

theorem execEcbDec_noKey {s : State} (h : s.ksValid = false) : execEcbDec s = .next (s.fail .noKey) := if_pos h

theorem execEcbDec_keyed {s : State} (h : s.ksValid = true) : execEcbDec s =
    .next ({ s with state := invCipher s.ks s.nr.val (inputBlock s) }.emit
      (invCipher s.ks s.nr.val (inputBlock s)) 16).sequencersFree :=
  if_neg (by simp [h])

/-- Settles O25: one equation per outcome. -/
theorem ecbEncCommand : Obligations.EcbEncCommand := fun _ _ _ =>
  ⟨execEcbEnc_noKey, fun h => ⟨_, _, _, _, _, execEcbEnc_keyed h⟩⟩

/-- Settles O26: one equation per outcome. -/
theorem ecbDecCommand : Obligations.EcbDecCommand := fun _ _ _ =>
  ⟨execEcbDec_noKey, fun h => ⟨_, _, _, _, _, execEcbDec_keyed h⟩⟩

end Sys2Proof.Machine
end

section
/-! PROOFS. The statements about the CBC mode controller (43_cbc_stream.md): padding, the six commands, and the stream state
machine. -/

namespace Sys2Proof.Machine

/-! ### Padding (R201) -/

/-- Settles O33: the equation of each byte of `pad`, and what `padValid` decides. -/
theorem padAndPadValid : Obligations.PadAndPadValid :=
  ⟨fun d n _ i => getElem_pad d n i.val i.isLt, padValid_iff⟩

/-- The last byte of a padded block is the padding length (R201). -/
theorem toNat_last_pad (d : Block) {n : Nat} (hn : n ≤ 15) : (pad d n)[15].toNat = 16 - n := by
  rw [getElem_pad, if_neg (Nat.not_lt.mpr hn), BitVec.toNat_ofNat]
  omega

theorem padValid_pad (d : Block) {n : Nat} (hn : n ≤ 15) : padValid (pad d n) = true := by
  have hlast := toNat_last_pad d hn
  refine (padValid_iff _).mpr ⟨by omega, by omega, fun k hk => ?_⟩
  rw [Fin.getElem_fin, getElem_pad, getElem_pad, if_neg (by omega), if_neg (Nat.not_lt.mpr hn)]

/-- A block with valid padding is the padding of its own first bytes (R201). -/
theorem pad_of_padValid {b : Block} (h : padValid b = true) : pad b (16 - b[15].toNat) = b := by
  obtain ⟨hpos, hle, hpad⟩ := (padValid_iff b).mp h
  apply Vector.ext
  intro i hi
  rw [getElem_pad]
  split
  · rfl
  · rename_i hge
    have hbyte : b[i] = b[15] := hpad ⟨i, hi⟩ (Nat.not_lt.mp hge)
    rw [hbyte, Nat.sub_sub_self hle, BitVec.ofNat_toNat, BitVec.setWidth_eq]

/-- Settles O34: `pad` makes valid padding, and a valid block is the `pad` of itself. -/
theorem padValidIsExact : Obligations.PadValidIsExact := by
  refine ⟨fun b => ⟨fun h => ⟨b, 16 - b[15].toNat, ?_, (pad_of_padValid h).symm⟩, ?_⟩, fun d _ => toNat_last_pad d⟩
  · have hpos := ((padValid_iff b).mp h).1
    omega
  · rintro ⟨d, n, hn, rfl⟩
    exact padValid_pad d hn

/-- A last byte of 1 asks nothing of the bytes before it (R207). -/
theorem padValid_of_last_one {b : Block} (h : b[15] = 0x01#8) : padValid b = true := by
  have hlast : b[15].toNat = 1 := by rw [h]; rfl
  refine (padValid_iff b).mpr ⟨by omega, by omega, fun k hk => ?_⟩
  obtain rfl : k = 15 := Fin.ext (by show k.val = 15; omega)
  rfl

theorem padValid_of_last_out_of_range {b : Block} (h : b[15] = 0x00#8 ∨ 17 ≤ b[15].toNat) : padValid b = false := by
  rw [Bool.eq_false_iff]
  intro hv
  obtain ⟨hpos, hle, -⟩ := (padValid_iff b).mp hv
  obtain h0 | h17 := h
  · rw [h0] at hpos
    exact absurd hpos (by decide)
  · omega

/-- Settles O35: the last byte decides, in the tampered block of C4 too. -/
theorem paddingCornerCases : Obligations.PaddingCornerCases :=
  ⟨fun _ => padValid_of_last_one, fun _ => padValid_of_last_out_of_range, padValid_of_last_one rfl⟩

/-! ### The six commands, one equation per outcome (R202 to R208) -/

section

variable {s : State} {len : BitVec 6}

theorem execEncStart_noKey (hk : s.ksValid = false) : execEncStart s = .next (s.fail .noKey) := if_pos hk

theorem execEncStart_keyed (hk : s.ksValid = true) : execEncStart s =
    .next ({ s with cv := ivBlock s, stream := .encRun }.emit (ivBlock s) 16).sequencersFree :=
  if_neg (ne_false_of_eq_true hk)

theorem execEncBlock_noKey (hk : s.ksValid = false) : execEncBlock s = .next (s.fail .noKey) := if_pos hk

theorem execEncBlock_badSequence (hk : s.ksValid = true) (hs : s.stream ≠ .encRun) :
    execEncBlock s = .next (s.fail .badSequence) :=
  (if_neg (ne_false_of_eq_true hk)).trans (if_pos hs)

theorem execEncBlock_running {c : Block} (hk : s.ksValid = true) (hs : s.stream = .encRun)
    (hc : c = cipher s.ks s.nr.val (xorBlock (inputBlock s) s.cv)) :
    execEncBlock s = .next ({ s with state := c, cv := c }.emit c 16).sequencersFree :=
  hc ▸ (if_neg (ne_false_of_eq_true hk)).trans (if_neg (not_not_intro hs))

theorem execEncFinal_illegal (hl : 15 < len.toNat) : execEncFinal len s = .next (s.fail .illegalCommand) := if_pos hl

theorem execEncFinal_noKey (hl : len.toNat ≤ 15) (hk : s.ksValid = false) :
    execEncFinal len s = .next (s.fail .noKey) :=
  (if_neg (Nat.not_lt.mpr hl)).trans (if_pos hk)

theorem execEncFinal_badSequence (hl : len.toNat ≤ 15) (hk : s.ksValid = true) (hs : s.stream ≠ .encRun) :
    execEncFinal len s = .next (s.fail .badSequence) :=
  (if_neg (Nat.not_lt.mpr hl)).trans ((if_neg (ne_false_of_eq_true hk)).trans (if_pos hs))

theorem execEncFinal_running {c : Block} (hl : len.toNat ≤ 15) (hk : s.ksValid = true) (hs : s.stream = .encRun)
    (hc : c = cipher s.ks s.nr.val (xorBlock (pad (inputBlock s) len.toNat) s.cv)) :
    execEncFinal len s = .next ({ s with state := c, cv := c, stream := .done }.emit c 16).sequencersFree :=
  hc ▸ (if_neg (Nat.not_lt.mpr hl)).trans ((if_neg (ne_false_of_eq_true hk)).trans (if_neg (not_not_intro hs)))

theorem execDecStart_illegal (hl : 16 < len.toNat) : execDecStart len s = .next (s.fail .illegalCommand) := if_pos hl

theorem execDecStart_noKey (hl : len.toNat ≤ 16) (hk : s.ksValid = false) :
    execDecStart len s = .next (s.fail .noKey) :=
  (if_neg (Nat.not_lt.mpr hl)).trans (if_pos hk)

theorem execDecStart_truncated (hl : len.toNat < 16) (hk : s.ksValid = true) :
    execDecStart len s = .next ({ s with stream := .failed }.fail .streamTruncated) :=
  (if_neg (Nat.not_lt.mpr hl.le)).trans ((if_neg (ne_false_of_eq_true hk)).trans (if_pos hl))

theorem execDecStart_full (hl : len.toNat = 16) (hk : s.ksValid = true) : execDecStart len s =
    .next { s with cv := inputBlock s, stream := .decRun }.emitNothing.sequencersFree :=
  (if_neg hl.not_gt).trans ((if_neg (ne_false_of_eq_true hk)).trans (if_neg hl.not_lt))

theorem execDecBlock_noKey (hk : s.ksValid = false) : execDecBlock s = .next (s.fail .noKey) := if_pos hk

theorem execDecBlock_badSequence (hk : s.ksValid = true) (hs : s.stream ≠ .decRun) :
    execDecBlock s = .next (s.fail .badSequence) :=
  (if_neg (ne_false_of_eq_true hk)).trans (if_pos hs)

theorem execDecBlock_running {o : Block} (hk : s.ksValid = true) (hs : s.stream = .decRun)
    (ho : o = invCipher s.ks s.nr.val (inputBlock s)) : execDecBlock s =
    .next ({ s with nextIv := inputBlock s, state := o, cv := inputBlock s }.emit (xorBlock o s.cv) 16).sequencersFree :=
  ho ▸ (if_neg (ne_false_of_eq_true hk)).trans (if_neg (not_not_intro hs))

theorem execDecFinal_illegal (hl : 16 < len.toNat) : execDecFinal len s = .next (s.fail .illegalCommand) := if_pos hl

theorem execDecFinal_noKey (hl : len.toNat ≤ 16) (hk : s.ksValid = false) :
    execDecFinal len s = .next (s.fail .noKey) :=
  (if_neg (Nat.not_lt.mpr hl)).trans (if_pos hk)

theorem execDecFinal_badSequence (hl : len.toNat ≤ 16) (hk : s.ksValid = true) (hs : s.stream ≠ .decRun) :
    execDecFinal len s = .next (s.fail .badSequence) :=
  (if_neg (Nat.not_lt.mpr hl)).trans ((if_neg (ne_false_of_eq_true hk)).trans (if_pos hs))

theorem execDecFinal_truncated (hl : len.toNat < 16) (hk : s.ksValid = true) (hs : s.stream = .decRun) :
    execDecFinal len s = .next ({ s with stream := .failed }.fail .streamTruncated) :=
  (if_neg (Nat.not_lt.mpr hl.le)).trans ((if_neg (ne_false_of_eq_true hk)).trans
    ((if_neg (not_not_intro hs)).trans (if_pos hl)))

/-- `DEC_FINAL` with a full block: the block is decrypted, and then its padding decides (R207). -/
theorem execDecFinal_full {o p : Block} (hl : len.toNat = 16) (hk : s.ksValid = true) (hs : s.stream = .decRun)
    (ho : o = invCipher s.ks s.nr.val (inputBlock s)) (hp : p = xorBlock o s.cv) : execDecFinal len s =
    if padValid p then .next ({ s with
      nextIv := inputBlock s, state := o, cv := inputBlock s, stream := .done }.emit p (plainCount p)).sequencersFree
    else .next ({ s with
      nextIv := inputBlock s, state := o, cv := inputBlock s, stream := .failed }.fail .paddingInvalid).sequencersFree := by
  subst ho hp
  exact (if_neg hl.not_gt).trans ((if_neg (ne_false_of_eq_true hk)).trans
    ((if_neg (not_not_intro hs)).trans (if_neg hl.not_lt)))

end

/-- Settles O27: one equation per outcome; the words of the emitted block are those of `IV`. -/
theorem encStartCommand : Obligations.EncStartCommand := by
  refine fun s len kb => ⟨execEncStart_noKey, fun hk => ?_⟩
  have hrun := execEncStart_keyed hk
  rw [State.emit, ivBlock, blockWords_wordsBlock] at hrun
  exact ⟨_, _, _, _, _, hrun⟩

/-- Settles O28: one equation per outcome. -/
theorem encBlockCommand : Obligations.EncBlockCommand := fun _ _ _ _ hc =>
  ⟨execEncBlock_noKey, execEncBlock_badSequence, fun hk hs => ⟨_, _, _, _, _, execEncBlock_running hk hs hc⟩⟩

/-- Settles O29: one equation per outcome. -/
theorem encFinalCommand : Obligations.EncFinalCommand := fun _ _ _ _ hc =>
  ⟨execEncFinal_illegal, execEncFinal_noKey, execEncFinal_badSequence,
    fun hl hk hs => ⟨_, _, _, _, _, execEncFinal_running hl hk hs hc⟩⟩

/-- Settles O30: one equation per outcome. -/
theorem decStartCommand : Obligations.DecStartCommand := fun _ _ _ =>
  ⟨execDecStart_illegal, execDecStart_noKey, execDecStart_truncated,
    fun hl hk => ⟨_, _, _, _, _, execDecStart_full hl hk⟩⟩

/-- Settles O31: one equation per outcome. -/
theorem decBlockCommand : Obligations.DecBlockCommand := fun _ _ _ _ ho =>
  ⟨execDecBlock_noKey, execDecBlock_badSequence, fun hk hs => ⟨_, _, _, _, _, (execDecBlock_running hk hs ho :)⟩⟩

/-- Settles O32: one equation per outcome, that of a full block split by its padding. -/
theorem decFinalCommand : Obligations.DecFinalCommand := by
  intro s len kb o p ho hp
  refine ⟨execDecFinal_illegal, execDecFinal_noKey, execDecFinal_badSequence, execDecFinal_truncated,
    fun hl hk hs hv => ⟨_, _, _, _, _, (execDecFinal_full hl hk hs ho hp).trans (if_neg (ne_true_of_eq_false hv))⟩,
    fun hl hk hs hv m hm => ?_⟩
  obtain rfl : m = plainCount p := Fin.ext hm
  exact ⟨_, _, _, _, _, (execDecFinal_full hl hk hs ho hp).trans (if_pos hv)⟩

/-! ### The stream state machine (R200, R211) -/

/-- Every command takes `STREAM` where the table says (R200). -/
theorem exec_stream {i : Instr} {s t : State} (h : exec i s = .next t) :
    t.stream = SpecTable.streamAfter i s.stream t.err := by
  cases i with
  | nop len kb => obtain rfl := execNop_cases h; rfl
  | init len kb =>
    obtain ⟨-, rfl⟩ | ⟨-, -, rfl⟩ | ⟨v, -, -, -, rfl⟩ | ⟨v, -, -, -, rfl⟩ := execInit_cases h <;> rfl
  | ecbEnc len kb => obtain ⟨-, rfl⟩ | ⟨-, rfl⟩ := execEcbEnc_cases h <;> rfl
  | ecbDec len kb => obtain ⟨-, rfl⟩ | ⟨-, rfl⟩ := execEcbDec_cases h <;> rfl
  | encStart len kb => obtain ⟨-, rfl⟩ | ⟨-, rfl⟩ := execEncStart_cases h <;> rfl
  | encBlock len kb => obtain ⟨-, rfl⟩ | ⟨-, -, rfl⟩ | ⟨-, -, c, -, rfl⟩ := execEncBlock_cases h <;> rfl
  | encFinal len kb =>
    obtain ⟨-, rfl⟩ | ⟨-, -, rfl⟩ | ⟨-, -, -, rfl⟩ | ⟨-, -, -, c, -, rfl⟩ := execEncFinal_cases h <;> rfl
  | decStart len kb =>
    obtain ⟨-, rfl⟩ | ⟨-, -, rfl⟩ | ⟨-, -, rfl⟩ | ⟨-, -, rfl⟩ := execDecStart_cases h <;> rfl
  | decBlock len kb => obtain ⟨-, rfl⟩ | ⟨-, -, rfl⟩ | ⟨-, -, o, -, rfl⟩ := execDecBlock_cases h <;> rfl
  | decFinal len kb =>
    obtain ⟨-, rfl⟩ | ⟨-, -, rfl⟩ | ⟨-, -, -, rfl⟩ | ⟨-, -, -, rfl⟩ |
      ⟨-, -, -, o, p, -, -, ⟨-, rfl⟩ | ⟨-, rfl⟩⟩ := execDecFinal_cases h <;> rfl
  | reset len kb => obtain rfl := execReset_cases h; rfl

/-- A command of an open stream in another stream state: `BAD_SEQUENCE`, and nothing else changes (R200). -/
theorem exec_badSequence {i : Instr} {s : State} {st : StreamState} (hr : SpecTable.requiredStream i = some st)
    (hs : s.stream ≠ st) (hwf : i.wellFormed = true) (hk : s.ksValid = true) :
    exec i s = .next (s.fail .badSequence) := by
  cases i <;> cases hr
  case encBlock len kb => exact execEncBlock_badSequence hk hs
  case encFinal len kb => exact execEncFinal_badSequence (of_decide_eq_true hwf) hk hs
  case decBlock len kb => exact execDecBlock_badSequence hk hs
  case decFinal len kb => exact execDecFinal_badSequence (of_decide_eq_true hwf) hk hs

/-- A command of an open stream succeeds only in the stream state it requires (R200). -/
theorem requiredStream_of_success {i : Instr} {s t : State} {st : StreamState} (h : exec i s = .next t)
    (hr : SpecTable.requiredStream i = some st) (he : t.err = .none) : s.stream = st := by
  cases i <;> cases hr
  case encBlock len kb =>
    obtain ⟨-, rfl⟩ | ⟨-, -, rfl⟩ | ⟨-, hs, -⟩ := execEncBlock_cases h
    · cases he
    · cases he
    · exact hs
  case encFinal len kb =>
    obtain ⟨-, rfl⟩ | ⟨-, -, rfl⟩ | ⟨-, -, -, rfl⟩ | ⟨-, -, hs, -⟩ := execEncFinal_cases h
    · cases he
    · cases he
    · cases he
    · exact hs
  case decBlock len kb =>
    obtain ⟨-, rfl⟩ | ⟨-, -, rfl⟩ | ⟨-, hs, -⟩ := execDecBlock_cases h
    · cases he
    · cases he
    · exact hs
  case decFinal len kb =>
    obtain ⟨-, rfl⟩ | ⟨-, -, rfl⟩ | ⟨-, -, -, rfl⟩ | ⟨-, -, hs, -⟩ | ⟨-, -, hs, -⟩ := execDecFinal_cases h
    · cases he
    · cases he
    · cases he
    · exact hs
    · exact hs

/-- Settles O36: the table, the success of a command, and its refusal, each by the command's outcomes. -/
theorem streamStateMachine : Obligations.StreamStateMachine :=
  ⟨fun _ _ _ h => ⟨exec_stream h, fun _ => requiredStream_of_success h⟩, fun _ _ _ => exec_badSequence⟩

/-- What a running `DEC_BLOCK` emits and chains on (R208). -/
theorem execDecBlock_emits {s t : State} (hk : s.ksValid = true) (hs : s.stream = .decRun)
    (h : execDecBlock s = .next t) :
    wordsBlock t.dout = xorBlock (invCipher s.ks s.nr.val (inputBlock s)) s.cv ∧ t.cv = inputBlock s := by
  have hrun := execDecBlock_running hk hs rfl
  obtain rfl := Host.Outcome.next.inj (hrun.symm.trans h)
  exact ⟨wordsBlock_blockWords _, rfl⟩

/-- Settles O37: `CV` enters the emitted block by one XOR, and the next `CV` not at all. -/
theorem chainingErrorsFlipTheSameBits : Obligations.ChainingErrorsFlipTheSameBits := by
  intro s t t' d len len' kb kb' hk hs h h'
  obtain ⟨hout, hcv⟩ := execDecBlock_emits hk hs h
  obtain ⟨hout', hcv'⟩ := execDecBlock_emits (s := { s with cv := xorBlock s.cv d }) hk hs h'
  refine ⟨?_, hcv'.trans hcv.symm⟩
  rw [hout', hout]
  exact (xorBlock_assoc ..).symm

end Sys2Proof.Machine
end

section
/-! PROOFS. Whole streams (43_cbc_stream.md R205, R209, R210): what each piece of a stream's access sequence does to the
state, to the open stream and to the host's record; the pieces joined; and the three statements about streams. -/

namespace Sys2Proof.Machine

/-! ### What a stream's accesses do, piece by piece (R303, R305) -/

/-- The host in the middle of a stream or after it: everything is read that there was to read, no new block stands in `DIN`,
and `left` bytes of the open stream are still to come. -/
def HostRecord.following (used : List Block) (left : Option Nat) : HostRecord where
  keys := []
  lengths := []
  usedIvs := used
  left := left
  keyChecked := true
  statusRead := true
  doutRead := [3, 2, 1, 0]
  dinWritten := []
  polled := true

/-- From `s` the accesses `as` end in `u`; they add `out` to the open stream, which then stands as `u` says; and they keep
every duty of a host that has `left` bytes to come before them and `left'` after. -/
def Continues (as : List Access) (s u : State) (out : List Byte) (left left' : Option Nat) : Prop :=
  ∃ ms, session as s = some (u, ms) ∧ Extends ms out (standing u)
    ∧ ∀ used, Keeps (.following used left) ms (.following used left')

/-- From `s` the accesses `as` end in `u`; they begin a stream of `n` bytes, the only one, with the output `out`; and they
keep every duty of a host at a clean launch whose used IVs are `fresh`. -/
def Begins (as : List Access) (s u : State) (k : StreamKind) (out : List Byte) (fresh : List Block → Prop) (n : Nat)
    (left : Option Nat) : Prop :=
  ∃ ms r, session as s = some (u, ms) ∧ ms.foldl followStreams [] = [r] ∧ r.kind = k ∧ r.output = out
    ∧ r.ending = standing u
    ∧ ∀ used, fresh used → ∃ used', Keeps (.start [] [n] used) ms (.following used' left)

section

variable {as bs : List Access} {s u v : State} {k : StreamKind} {o p : List Byte} {fresh : List Block → Prop} {n : Nat}
  {l l' l'' : Option Nat}

theorem Continues.append (h : Continues as s u o l l') (hu : standing u = .notEnded) (h' : Continues bs u v p l' l'') :
    Continues (as ++ bs) s v (o ++ p) l l'' := by
  obtain ⟨ms, hs, he, hk⟩ := h
  obtain ⟨ns, hs', he', hk'⟩ := h'
  exact ⟨ms ++ ns, session_append hs hs', (hu ▸ he).append he', fun used => (hk used).append (hk' used)⟩

theorem Begins.append (h : Begins as s u k o fresh n l) (hu : standing u = .notEnded) (h' : Continues bs u v p l l') :
    Begins (as ++ bs) s v k (o ++ p) fresh n l' := by
  obtain ⟨ms, r, hs, hr, hkind, hout, hend, hk⟩ := h
  obtain ⟨ns, hs', he', hk'⟩ := h'
  obtain ⟨r', hr', hkind', hout', hend'⟩ := he' r (hend.trans hu)
  refine ⟨ms ++ ns, r', session_append hs hs', ?_, hkind'.trans hkind, by rw [hout', hout], hend', fun used hf => ?_⟩
  · rw [List.foldl_append, hr, hr']
  · obtain ⟨used', hstart⟩ := hk used hf
    exact ⟨used', hstart.append (hk' used')⟩

/-- A run that begins a stream and has no byte of it left is that one stream, and keeps every duty (R303, R305). -/
theorem Begins.one_stream (h : Begins as s u k o fresh n none) :
    ∃ ms r, session as s = some (u, ms) ∧ streams ms = [r] ∧ r.kind = k ∧ r.output = o ∧ r.ending = standing u
      ∧ ∀ used, fresh used → dutiful (.start [] [n] used) ms = true := by
  obtain ⟨ms, r, hs, hr, hkind, hout, hend, hk⟩ := h
  refine ⟨ms, r, hs, by rw [streams, hr]; rfl, hkind, hout, hend, fun used hf => ?_⟩
  obtain ⟨used', hkeeps⟩ := hk used hf
  have hend := hkeeps []
  rw [List.append_nil] at hend
  exact hend

end

/-- `LDIN` writes and `RDOUT` reads all four words; the record lists the latest first. -/
theorem mem_allWords (j : Fin 4) : j ∈ ([3, 2, 1, 0] : List (Fin 4)) := by revert j; decide

/-- All four words of a block hold any number of its bytes. -/
theorem coversBytes_of_all {js : List (Fin 4)} (h : ∀ j, j ∈ js) (n : Nat) : coversBytes n js = true :=
  decide_eq_true fun j _ => h j

/-- The host has read all that there was to read, and may go on (R305, HD1, HD6 and HD7). -/
structure HostRecord.UpToDate (r : HostRecord) : Prop where
  keyChecked : r.keyChecked = true
  statusRead : r.statusRead = true
  polled : r.polled = true
  doutRead : ∀ j, j ∈ r.doutRead

/-- A host that is up to date owes the duties of the stream alone to a command other than `INIT`: HD1 and HD8 ask for
nothing more, by `hinit`. -/
theorem HostRecord.UpToDate.keeps {r : HostRecord} {m : Made} (hr : r.UpToDate) (hb : m.before.busy = false)
    (hinit : ∀ l kb, issued m.access ≠ some (.init l kb)) (h2 : r.keeps m .hd2 = true) (h3 : r.keeps m .hd3 = true)
    (h4 : r.keeps m .hd4 = true) (h5 : r.keeps m .hd5 = true) (d : HostDuty) : r.keeps m d = true := by
  cases d with
  | hd1 => simp only [HostRecord.keeps, hr.keyChecked, Bool.or_true, Bool.true_and]
  | hd2 => exact h2
  | hd3 => exact h3
  | hd4 => exact h4
  | hd5 => exact h5
  | hd6 => simp [HostRecord.keeps, hr.polled, hb]
  | hd7 => simp [HostRecord.keeps, hr.statusRead, coversBytes_of_all hr.doutRead]
  | hd8 => simp only [HostRecord.keeps]

/-! ### A block handed over in an open stream (R203, R204, R207, R208) -/

/-- What a command takes from an open stream with so many bytes left, and what is left after it: a block command takes 16
bytes, `DEC_BLOCK` only if another follows, and a final command takes all (R305, HD4 and HD5). -/
inductive Takes : Instr → Nat → Option Nat → Prop
  | encBlock (len : BitVec 6) (kb : BitVec 9) (n : Nat) : Takes (.encBlock len kb) (n + 16) (some n)
  | decBlock (len : BitVec 6) (kb : BitVec 9) (n : Nat) : Takes (.decBlock len kb) (n + 17) (some (n + 1))
  | encFinal (len : BitVec 6) (kb : BitVec 9) : Takes (.encFinal len kb) len.toNat none
  | decFinal (len : BitVec 6) (kb : BitVec 9) : Takes (.decFinal len kb) len.toNat none

section

variable {i : Instr} {k : Nat} {k' : Option Nat} {m : Made} (hi : Takes i k k') (hm : issued m.access = some i)
include hi

theorem Takes.not_nop (l : BitVec 6) (kb : BitVec 9) : i ≠ .nop l kb := by
  rintro rfl
  cases hi

include hm

/-- A command that takes bytes of an open stream starts none and replaces none. -/
theorem Takes.opens_replaces : m.opens = none ∧ m.replaces = false := by
  have ho : m.opens = none := by unfold Made.opens; rw [hm]; cases hi <;> rfl
  refine ⟨ho, ?_⟩
  unfold Made.replaces
  rw [hm, ho]
  split
  · rename_i ha; rw [ha] at hm; cases hm
  · rename_i hinit _; cases hinit; cases hi
  · rename_i hreset _; cases hreset; cases hi
  · rfl

/-- A command that takes bytes, issued with a new block in `DIN`, keeps every duty (R305). -/
theorem Takes.keeps (hst : SpecTable.requiredStream i = some m.before.stream) (hb : m.before.busy = false)
    (used : List Block) (d : HostDuty) :
    ({ HostRecord.following used (some k) with dinWritten := [3, 2, 1, 0] } : HostRecord).keeps m d = true := by
  have hr : ({ HostRecord.following used (some k) with dinWritten := [3, 2, 1, 0] } : HostRecord).UpToDate :=
    ⟨rfl, rfl, rfl, mem_allWords⟩
  have hall : ∀ n, coversBytes n [3, 2, 1, 0] = true := coversBytes_of_all mem_allWords
  refine hr.keeps hb (fun l kb h => ?_) ?_ ?_ ?_ ?_ d
  · rw [hm] at h; cases h; cases hi
  all_goals
    cases hi <;> have hs := (Option.some.inj hst).symm <;>
    simp [HostRecord.keeps, hm, HostRecord.mayTakeBlock, HostRecord.mayFinish, HostRecord.following, hs, hall]

/-- The host's record after a command that takes bytes and is not refused. -/
theorem Takes.afterIssue (he : m.after.err ≠ .noKey ∧ m.after.err ≠ .badSequence) (used : List Block) :
    ({ HostRecord.following used (some k) with dinWritten := [3, 2, 1, 0] } : HostRecord).afterIssue m
      = .following used k' := by
  unfold HostRecord.afterIssue HostRecord.afterCommand
  rw [if_neg (not_or.mpr he), hm]
  cases hi <;> rfl

end

theorem issued_encode {i : Instr} (hwf : i.wellFormed = true) (hn : ∀ l kb, i ≠ .nop l kb) :
    isCommand (.write 0#7 (encode i)) = true ∧ issued (.write 0#7 (encode i)) = some i :=
  issued_ok (decodeEncodeRoundTrip i hwf) hn

/-- `LDIN` and a command that takes bytes and is not refused: the open stream goes on with the command's output, and stands
as the command leaves it. -/
theorem Takes.continues {i : Instr} {k : Nat} {k' : Option Nat} (hi : Takes i k k') (hwf : i.wellFormed = true)
    {s t : State} (b : Block) (hb : s.busy = false) (hst : SpecTable.requiredStream i = some s.stream)
    (h : exec i { s with din := blockWords b } = .next t) (ht : t.busy = false)
    (he : t.err ≠ .noKey ∧ t.err ≠ .badSequence) :
    ∃ x, Continues (loadDin b ++ issue i) s { t with pending := [], replies := x } (outBytes t) (some k) k' := by
  have hopen : standing s = .notEnded := by
    unfold standing
    cases hi <;> rw [← Option.some.inj hst]
  obtain ⟨x, ls, m, ms, hs, hm, hls, hms, hkeeps⟩ :=
    session_block b hb (decodeEncodeRoundTrip i hwf) hi.not_nop h ht
  obtain ⟨hcmd, hissued⟩ := issued_encode hwf hi.not_nop
  have hacc : m.access = .write 0#7 (encode i) := by rw [hm]
  rw [← hacc] at hcmd hissued
  obtain ⟨hopens, hreplaces⟩ := hi.opens_replaces hissued
  have hload := extends_quiet (fun l hl => (hls l hl).1) fun l hl => (hls l hl).2.trans hopen
  have hcommand := extends_command hopens hreplaces (fun y hy => (hms y hy).1) fun y hy => (hms y hy).2
  have hout := hload.append hcommand
  rw [List.nil_append, Made.output, hcmd, if_pos rfl] at hout
  refine ⟨x, ls ++ m :: ms, hs, ?_, fun used => ?_⟩
  · subst hm
    exact hout
  · have hk := hi.keeps hissued (by rw [hm]; exact hst) (by rw [hm]; exact hb) used
    have ha := hi.afterIssue hissued (by rw [hm]; exact he) used
    rw [← ha]
    exact hkeeps _ rfl hk

/-! ### The start of a stream (R202, R206) -/

/-- A command's access as a run records it: what is pending is left out. -/
def Made.command (i : Instr) (s t : State) : Made :=
  { before := { s with pending := [] }, access := .write 0#7 (encode i), after := { t with pending := [] } }

theorem Made.opens_encStart {m : Made} {len : BitVec 6} {kb : BitVec 9}
    (hm : issued m.access = some (.encStart len kb)) (he : m.after.err = .none) : m.opens = some .encryption := by
  rw [Made.opens, hm]
  exact if_pos he

theorem Made.opens_decStart {m : Made} {len : BitVec 6} {kb : BitVec 9}
    (hm : issued m.access = some (.decStart len kb)) (he : m.after.err = .none ∨ m.after.err = .streamTruncated) :
    m.opens = some .decryption := by
  rw [Made.opens, hm]
  exact if_pos he

/-- A `START` after loading its block begins a stream, if the host's record allows it. -/
theorem begins_command {as : List Access} {i : Instr} {s v t : State} {ls : List Made} {k : StreamKind}
    {fresh : List Block → Prop} {n : Nat} {left : Option Nat} (hload : session as s = some (v, ls))
    (hquiet : ∀ l ∈ ls, l.quiet) (hb : v.busy = false) (hwf : i.wellFormed = true) (hn : ∀ l kb, i ≠ .nop l kb)
    (h : exec i v = .next t) (ht : t.busy = false) (ho : (Made.command i v t).opens = some k)
    (hhost : ∀ used, fresh used → ∃ r used', Keeps (.start [] [n] used) ls r
      ∧ (∀ d, r.keeps (Made.command i v t) d = true) ∧ r.afterIssue (Made.command i v t) = .following used' left) :
    ∃ x, Begins (as ++ issue i) s { t with pending := [], replies := x } k (outBytes t) fresh n left := by
  obtain ⟨x, m, ms, hs, hm, hms, hissue⟩ := session_issue hb (decodeEncodeRoundTrip i hwf) hn h ht
  obtain rfl : m = Made.command i v t := hm
  obtain ⟨r, hr, hkind, hout, hend⟩ := follow_start ho (fun y hy => (hms y hy).1) fun y hy => (hms y hy).2
  have hcmd : isCommand (Made.command i v t).access = true := (issued_encode hwf hn).1
  rw [Made.output, hcmd, if_pos rfl] at hout
  refine ⟨x, _, r, session_append hload hs, ?_, hkind, hout, hend, fun used hf => ?_⟩
  · rw [List.foldl_append, follow_quiet_none hquiet, hr]
  · obtain ⟨r, used', hkl, hkm, hra⟩ := hhost used hf
    exact ⟨used', hkl.append (hra ▸ hissue r hkm)⟩

/-- The core in stream state `st` under a loaded schedule, with the chaining value `cv`. -/
structure Running (st : StreamState) (ks : Vector Word 60) (nr : Fin 15) (cv : Block) (s : State) : Prop where
  idle : s.busy = false
  keyed : s.ksValid = true
  stream : s.stream = st
  ks : s.ks = ks
  nr : s.nr = nr
  cv : s.cv = cv

section

variable {st : StreamState} {ks : Vector Word 60} {nr : Fin 15} {cv : Block} {s : State}

theorem Running.standing_encRun (h : Running .encRun ks nr cv s) : standing s = .notEnded := by
  unfold standing; rw [h.stream]

theorem Running.standing_decRun (h : Running .decRun ks nr cv s) : standing s = .notEnded := by
  unfold standing; rw [h.stream]

end

theorem ivBlock_of_loaded {s : State} {b : Block} (h : s.iv = blockWords b) : ivBlock s = b := by
  rw [ivBlock, h, wordsBlock_blockWords]

theorem inputBlock_of_loaded {s : State} {b : Block} (h : s.din = blockWords b) : inputBlock s = b := by
  rw [inputBlock, h, wordsBlock_blockWords]

/-- What a success outputs: the first `n` bytes of the block it emits (R27, R303). -/
theorem outBytes_emit (s : State) (b : Block) (n : Fin 17) :
    outBytes (s.emit b n).sequencersFree = b.toList.take n.val := by
  simp only [outBytes, State.sequencersFree_dout, State.emit_dout, wordsBlock_blockWords,
    State.sequencersFree_outCount, State.emit_outCount]

theorem outBytes_emit_all (s : State) (b : Block) : outBytes (s.emit b 16).sequencersFree = b.toList := by
  rw [outBytes_emit]
  exact List.take_of_length_le (by simp)

/-- The host at a clean launch, whatever it has written to `DIN`, is up to date. -/
theorem HostRecord.upToDate_start (n : Nat) (used : List Block) (js : List (Fin 4)) :
    ({ HostRecord.start [] [n] used with dinWritten := js } : HostRecord).UpToDate :=
  ⟨rfl, rfl, rfl, fun j => by revert j; show ∀ j : Fin 4, j ∈ ([0, 1, 2, 3] : List (Fin 4)); decide⟩

/-- A fresh IV is all that `ENC_START` asks of the host at a clean launch (R305, HD2). -/
theorem HostRecord.start_encStart {m : Made} {len : BitVec 6} {kb : BitVec 9} {n : Nat} {used : List Block}
    (hm : issued m.access = some (.encStart len kb)) (hb : m.before.busy = false) (he : m.after.err = .none)
    (hfresh : ivBlock m.before ∉ used) :
    (∀ d, (HostRecord.start [] [n] used).keeps m d = true)
      ∧ (HostRecord.start [] [n] used).afterIssue m = .following (ivBlock m.before :: used) (some n) := by
  constructor
  · refine (HostRecord.upToDate_start n used []).keeps hb (by simp [hm]) ?_ ?_ ?_ ?_ <;>
      simp [HostRecord.keeps, hm, HostRecord.start, hfresh]
  · unfold HostRecord.afterIssue HostRecord.afterCommand
    rw [if_neg (by simp [he]), hm]
    rfl

/-- The true count is all that `DEC_START` asks of the host at a clean launch (R305, HD3). -/
theorem HostRecord.start_decStart {m : Made} {len : BitVec 6} {kb : BitVec 9} {n : Nat}
    {left : Option Nat} (used : List Block) (hm : issued m.access = some (.decStart len kb))
    (hb : m.before.busy = false) (he : m.after.err ≠ .noKey ∧ m.after.err ≠ .badSequence)
    (hlen : len.toNat = min 16 n) (hleft : left = if m.after.stream = .decRun then some (n - 16) else none) :
    (∀ d, ({ HostRecord.start [] [n] used with dinWritten := [3, 2, 1, 0] } : HostRecord).keeps m d = true)
      ∧ ({ HostRecord.start [] [n] used with dinWritten := [3, 2, 1, 0] } : HostRecord).afterIssue m
        = .following used left := by
  constructor
  · refine (HostRecord.upToDate_start n used [3, 2, 1, 0]).keeps hb (by simp [hm]) ?_ ?_ ?_ ?_ <;>
      simp [HostRecord.keeps, hm, HostRecord.start, hlen, coversBytes_of_all mem_allWords]
  · unfold HostRecord.afterIssue HostRecord.afterCommand
    rw [if_neg (not_or.mpr he), hm, hleft]
    rfl

/-- `LDIV` and `ENC_START` begin an encryption stream with the IV as its first output (R202, R205). -/
theorem begins_encStart {s : State} (h : cleanLaunch s) (iv : Block) (n : Nat) :
    ∃ u, Begins (loadIv iv ++ issue (.encStart 0 0)) s u .encryption iv.toList (iv ∉ ·) n (some n)
      ∧ Running .encRun s.ks s.nr iv u := by
  obtain ⟨hb, hk, -⟩ := h
  obtain ⟨ls, hs, hls, hload⟩ := session_loadIv hb iv
  have hrun := execEncStart_keyed (s := { s with iv := blockWords iv, pending := [] }) hk
  have hiv : ivBlock { s with iv := blockWords iv, pending := [] } = iv := ivBlock_of_loaded rfl
  rw [hiv] at hrun
  have hissued := (issued_encode (i := .encStart 0 0) rfl nofun).2
  obtain ⟨x, hx⟩ := begins_command (i := .encStart 0 0) (k := .encryption) (fresh := (iv ∉ ·)) (n := n)
    (left := some n) hs (fun l hl => (hls l hl).1) hb rfl nofun hrun hb (Made.opens_encStart hissued rfl) fun used hfresh =>
      ⟨_, _, hload _ rfl, HostRecord.start_encStart hissued hb rfl (hiv.symm ▸ hfresh)⟩
  rw [outBytes_emit_all] at hx
  exact ⟨_, hx, hb, hk, rfl, rfl, rfl, rfl⟩

/-- `LDIN` and `DEC_START` with a whole IV begin a decryption stream, with no output yet (R206, R209). -/
theorem begins_decStart {s : State} (h : cleanLaunch s) (iv : Block) (n : Nat) :
    ∃ u, Begins (loadDin iv ++ issue (.decStart 16 0)) s u .decryption [] (fun _ => True) (16 + n) (some n)
      ∧ Running .decRun s.ks s.nr iv u := by
  obtain ⟨hb, hk, -⟩ := h
  obtain ⟨ls, hs, hls, hload⟩ := session_loadDin hb iv
  have hrun := execDecStart_full (s := { s with din := blockWords iv, pending := [] }) (len := 16) rfl hk
  rw [inputBlock_of_loaded rfl] at hrun
  have hissued := (issued_encode (i := .decStart 16 0) rfl nofun).2
  obtain ⟨x, hx⟩ := begins_command (i := .decStart 16 0) (k := .decryption) (fresh := fun _ => True)
    (n := 16 + n) (left := some n) hs (fun l hl => (hls l hl).1) hb rfl nofun hrun hb (Made.opens_decStart hissued (.inl rfl)) fun used _ =>
      ⟨_, _, hload _ rfl, HostRecord.start_decStart used hissued hb ⟨nofun, nofun⟩
        (Nat.min_eq_left (Nat.le_add_right 16 n)).symm (congrArg some (Nat.add_sub_cancel_left 16 n).symm)⟩
  exact ⟨_, hx, hb, hk, rfl, rfl, rfl, rfl⟩

/-- `LDIN` and `DEC_START` with fewer than 16 bytes begin a stream that has failed already (R206, R209). -/
theorem begins_decStart_truncated {s : State} (h : cleanLaunch s) (d : Block) {len : BitVec 6} (hlen : len.toNat ≤ 15) :
    ∃ u, Begins (loadDin d ++ issue (.decStart len 0)) s u .decryption [] (fun _ => True) len.toNat none
      ∧ standing u = .failed .streamTruncated := by
  obtain ⟨hb, hk, -⟩ := h
  obtain ⟨ls, hs, hls, hload⟩ := session_loadDin hb d
  have hrun := execDecStart_truncated (s := { s with din := blockWords d, pending := [] })
    (Nat.lt_succ_of_le hlen) hk
  have hwf : (Instr.decStart len 0).wellFormed = true := decide_eq_true (Nat.le_succ_of_le hlen)
  have hissued := (issued_encode hwf nofun).2
  obtain ⟨x, hx⟩ := begins_command (i := .decStart len 0) (k := .decryption) (fresh := fun _ => True)
    (n := len.toNat) (left := none) hs (fun l hl => (hls l hl).1) hb hwf nofun hrun hb (Made.opens_decStart hissued (.inr rfl)) fun used _ =>
      ⟨_, _, hload _ rfl, HostRecord.start_decStart used hissued hb ⟨nofun, nofun⟩ (by omega) rfl⟩
  exact ⟨_, hx, rfl⟩

/-! ### Encryption (R203 to R205) -/

section

variable {ks : Vector Word 60} {nr : Fin 15} {cv : Block} {s : State}

/-- `LDIN` and `ENC_BLOCK` in an encryption stream (R203). -/
theorem Running.encBlock (h : Running .encRun ks nr cv s) (b : Block) (n : Nat) :
    ∃ u, Continues (loadDin b ++ issue (.encBlock 0 0)) s u (cipher ks nr.val (xorBlock b cv)).toList
        (some (n + 16)) (some n)
      ∧ Running .encRun ks nr (cipher ks nr.val (xorBlock b cv)) u := by
  obtain ⟨hb, hk, hs, rfl, rfl, rfl⟩ := h
  have hrun := execEncBlock_running (s := { s with din := blockWords b }) hk hs rfl
  rw [inputBlock_of_loaded rfl] at hrun
  obtain ⟨x, hx⟩ := (Takes.encBlock 0 0 n).continues rfl b hb (congrArg some hs.symm) hrun hb ⟨nofun, nofun⟩
  rw [outBytes_emit_all] at hx
  exact ⟨_, hx, hb, hk, hs, rfl, rfl, rfl⟩

/-- `LDIN` and `ENC_FINAL` with the last `n` bytes close the stream (R204). -/
theorem Running.encFinal (h : Running .encRun ks nr cv s) (tail : Block) {n : Nat} (hn : n ≤ 15) :
    ∃ u, Continues (loadDin tail ++ issue (.encFinal (BitVec.ofNat 6 n) 0)) s u
        (cipher ks nr.val (xorBlock (pad tail n) cv)).toList (some n) none
      ∧ Running .done ks nr u.cv u ∧ u.err = .none := by
  obtain ⟨hb, hk, hs, rfl, rfl, rfl⟩ := h
  have hlen : (BitVec.ofNat 6 n).toNat = n := by rw [BitVec.toNat_ofNat]; omega
  have hrun := execEncFinal_running (s := { s with din := blockWords tail }) (hlen.trans_le hn) hk hs rfl
  rw [inputBlock_of_loaded rfl, hlen] at hrun
  have htakes := Takes.encFinal (BitVec.ofNat 6 n) 0
  rw [hlen] at htakes
  obtain ⟨x, hx⟩ := htakes.continues (decide_eq_true (hlen.trans_le hn)) tail hb (congrArg some hs.symm) hrun hb
    ⟨nofun, nofun⟩
  rw [outBytes_emit_all] at hx
  exact ⟨_, hx, ⟨hb, hk, rfl, rfl, rfl, rfl⟩, rfl⟩

/-- The blocks of a plaintext and its padded last block, by induction on the blocks (R205). -/
theorem Running.encBody (h : Running .encRun ks nr cv s) (blocks : List Block) (tail : Block) {n : Nat} (hn : n ≤ 15) :
    ∃ u, Continues (blocks.flatMap (fun b => loadDin b ++ issue (.encBlock 0 0))
          ++ (loadDin tail ++ issue (.encFinal (BitVec.ofNat 6 n) 0))) s u
        (flatBytes (cbcEncrypt ks nr.val cv (blocks ++ [pad tail n]))) (some (16 * blocks.length + n)) none
      ∧ Running .done ks nr u.cv u ∧ u.err = .none := by
  induction blocks generalizing s cv with
  | nil => simpa [flatBytes, cbcEncrypt] using h.encFinal tail hn
  | cons b bs ih =>
    obtain ⟨v, hblock, hv⟩ := h.encBlock b (16 * bs.length + n)
    obtain ⟨u, hrest, hu⟩ := ih hv
    have hall := hblock.append hv.standing_encRun hrest
    rw [show 16 * bs.length + n + 16 = 16 * (b :: bs).length + n by rw [List.length_cons]; omega] at hall
    exact ⟨u, by simpa [flatBytes, cbcEncrypt] using hall, hu⟩

end

@[simp] theorem length_cbcEncrypt (ks : Vector Word 60) (nr : Nat) (cv : Block) (bs : List Block) :
    (cbcEncrypt ks nr cv bs).length = bs.length := by
  induction bs generalizing cv with
  | nil => rfl
  | cons b bs ih => simp [cbcEncrypt, ih]

@[simp] theorem length_flatBytes (bs : List Block) : (flatBytes bs).length = 16 * bs.length := by
  induction bs with
  | nil => rfl
  | cons b bs ih =>
    rw [flatBytes, List.flatMap_cons, List.length_append, ← flatBytes, ih, Vector.length_toList, List.length_cons]
    omega

/-- An encryption stream is a start and a body (R205). -/
theorem encStream {s : State} (h : cleanLaunch s) (iv : Block) (blocks : List Block) (tail : Block) {n : Nat}
    (hn : n ≤ 15) :
    ∃ u, Begins (encAccesses iv blocks tail n) s u .encryption
        (iv.toList ++ flatBytes (cbcEncrypt s.ks s.nr.val iv (blocks ++ [pad tail n]))) (iv ∉ ·)
        (16 * blocks.length + n) none
      ∧ Running .done s.ks s.nr u.cv u ∧ u.err = .none := by
  obtain ⟨v, hstart, hv⟩ := begins_encStart h iv (16 * blocks.length + n)
  obtain ⟨u, hbody, hu⟩ := hv.encBody blocks tail hn
  have hall := hstart.append hv.standing_encRun hbody
  exact ⟨u, by simpa only [encAccesses, List.append_assoc] using hall, hu⟩

/-- Settles O58: the stream is the one stream of its run, and the IV and the blocks have 16 bytes each. -/
theorem encryptionStream : Obligations.EncryptionStream := by
  intro s iv blocks tail n hlaunch hn
  obtain ⟨u, hall, hu, herr⟩ := encStream hlaunch iv blocks tail hn
  obtain ⟨ms, r, hs, hone, hkind, hout, hend, hdutiful⟩ := hall.one_stream
  refine ⟨u, ms, r, hs, hone, hkind, hend.trans (standing_eq_normally.mpr ⟨hu.stream, herr⟩), hu.stream, herr, hu.ks,
    hu.nr, hu.idle, hu.keyed, hout, ?_, hdutiful⟩
  rw [hout]
  simp

/-! ### Decryption (R206 to R209) -/

/-- What the last block of a decryption stream outputs, from its decrypted form (R207). -/
def finalBytes (p : Block) : List Byte := if padValid p then p.toList.take (16 - p[15].toNat) else []

/-- How a decryption stream ends at its last block (R207). -/
def finalEnd (p : Block) : StreamEnd := if padValid p then .normally else .failed .paddingInvalid

section

variable {ks : Vector Word 60} {nr : Fin 15} {cv : Block} {s : State}

/-- `LDIN` and `DEC_BLOCK` in a decryption stream, with at least one more byte to come (R208). -/
theorem Running.decBlock (h : Running .decRun ks nr cv s) (c : Block) (n : Nat) :
    ∃ u, Continues (loadDin c ++ issue (.decBlock 0 0)) s u (xorBlock (invCipher ks nr.val c) cv).toList
        (some (n + 17)) (some (n + 1))
      ∧ Running .decRun ks nr c u := by
  obtain ⟨hb, hk, hs, rfl, rfl, rfl⟩ := h
  have hrun := execDecBlock_running (s := { s with din := blockWords c }) hk hs rfl
  rw [inputBlock_of_loaded rfl] at hrun
  obtain ⟨x, hx⟩ := (Takes.decBlock 0 0 n).continues rfl c hb (congrArg some hs.symm) hrun hb ⟨nofun, nofun⟩
  rw [outBytes_emit_all] at hx
  exact ⟨_, hx, hb, hk, hs, rfl, rfl, rfl⟩

/-- `LDIN` and `DEC_FINAL` with fewer than 16 bytes: the stream is truncated (R207). -/
theorem Running.decFinal_truncated (h : Running .decRun ks nr cv s) (rest : Block) {n : Nat} (hn : n ≤ 15) :
    ∃ u, Continues (loadDin rest ++ issue (.decFinal (BitVec.ofNat 6 n) 0)) s u [] (some n) none
      ∧ standing u = .failed .streamTruncated := by
  obtain ⟨hb, hk, hs, rfl, rfl, rfl⟩ := h
  have hlen : (BitVec.ofNat 6 n).toNat = n := by rw [BitVec.toNat_ofNat]; omega
  have hrun := execDecFinal_truncated (s := { s with din := blockWords rest }) (len := BitVec.ofNat 6 n) (by omega) hk hs
  have htakes := Takes.decFinal (BitVec.ofNat 6 n) 0
  rw [hlen] at htakes
  obtain ⟨x, hx⟩ := htakes.continues (decide_eq_true (by omega)) rest hb (congrArg some hs.symm) hrun hb
    ⟨nofun, nofun⟩
  exact ⟨_, hx, rfl⟩

/-- `LDIN` and `DEC_FINAL` with a full block: the padding of the decrypted block decides (R207). -/
theorem Running.decFinal_full (h : Running .decRun ks nr cv s) (c : Block) :
    ∃ u, Continues (loadDin c ++ issue (.decFinal 16 0)) s u (finalBytes (xorBlock (invCipher ks nr.val c) cv))
        (some 16) none
      ∧ standing u = finalEnd (xorBlock (invCipher ks nr.val c) cv) := by
  obtain ⟨hb, hk, hs, rfl, rfl, rfl⟩ := h
  have hrun := execDecFinal_full (s := { s with din := blockWords c }) (len := 16) rfl hk hs rfl rfl
  rw [inputBlock_of_loaded rfl] at hrun
  have htakes : Takes (.decFinal 16 0) 16 none := Takes.decFinal 16 0
  unfold finalBytes finalEnd
  split
  · rename_i hv
    rw [if_pos hv] at hrun
    obtain ⟨x, hx⟩ := htakes.continues rfl c hb (congrArg some hs.symm) hrun hb ⟨nofun, nofun⟩
    rw [outBytes_emit] at hx
    exact ⟨_, hx, rfl⟩
  · rename_i hv
    rw [if_neg hv] at hrun
    obtain ⟨x, hx⟩ := htakes.continues rfl c hb (congrArg some hs.symm) hrun hb ⟨nofun, nofun⟩
    exact ⟨_, hx, rfl⟩

/-- Ciphertext blocks with 1 to 15 more bytes, or no byte at all after the IV, by induction on the blocks (R209). -/
theorem Running.decBody_truncated (h : Running .decRun ks nr cv s) (cs : List Block) (rest : Block) {n : Nat}
    (hn : n ≤ 15) (hshort : cs = [] ∨ 1 ≤ n) :
    ∃ u, Continues (decBody rest n cs) s u (flatBytes (cbcDecrypt ks nr.val cv cs)) (some (16 * cs.length + n)) none
      ∧ standing u = .failed .streamTruncated := by
  induction cs generalizing s cv with
  | nil => simpa [decBody, flatBytes, cbcDecrypt] using h.decFinal_truncated rest hn
  | cons c cs ih =>
    have hpos : 1 ≤ n := hshort.resolve_left nofun
    obtain ⟨v, hblock, hv⟩ := h.decBlock c (16 * cs.length + n - 1)
    obtain ⟨u, hrest, hu⟩ := ih hv (.inr hpos)
    rw [show 16 * cs.length + n - 1 + 17 = 16 * (c :: cs).length + n by rw [List.length_cons]; omega,
      show 16 * cs.length + n - 1 + 1 = 16 * cs.length + n by omega] at hblock
    have hall := hblock.append hv.standing_decRun hrest
    rw [decBody, if_neg (by omega)]
    exact ⟨u, hall, hu⟩

/-- Whole ciphertext blocks, by induction on those before the last (R209). -/
theorem Running.decBody_full (h : Running .decRun ks nr cv s) (cs : List Block) (c rest : Block) :
    ∃ u, Continues (decBody rest 0 (cs ++ [c])) s u
        (flatBytes (cbcDecrypt ks nr.val cv cs) ++ finalBytes (xorBlock (invCipher ks nr.val c) (cs.getLastD cv)))
        (some (16 * (cs.length + 1))) none
      ∧ standing u = finalEnd (xorBlock (invCipher ks nr.val c) (cs.getLastD cv)) := by
  induction cs generalizing s cv with
  | nil => simpa [decBody, flatBytes, cbcDecrypt] using h.decFinal_full c
  | cons d cs ih =>
    obtain ⟨v, hblock, hv⟩ := h.decBlock d (16 * cs.length + 15)
    obtain ⟨u, hrest, hu⟩ := ih hv
    rw [show 16 * cs.length + 15 + 17 = 16 * ((d :: cs).length + 1) by rw [List.length_cons]; omega,
      show 16 * cs.length + 15 + 1 = 16 * (cs.length + 1) by omega] at hblock
    have hall := hblock.append hv.standing_decRun hrest
    rw [List.cons_append, decBody, if_neg (by simp), List.getLastD_cons]
    exact ⟨u, by simpa [flatBytes, cbcDecrypt] using hall, hu⟩

end

theorem cbcDecrypt_concat (ks : Vector Word 60) (nr : Nat) (cv : Block) (cs : List Block) (c : Block) :
    cbcDecrypt ks nr cv (cs ++ [c]) = cbcDecrypt ks nr cv cs ++ [xorBlock (invCipher ks nr c) (cs.getLastD cv)] := by
  induction cs generalizing cv with
  | nil => rfl
  | cons d cs ih => rw [List.cons_append, cbcDecrypt, ih, List.getLastD_cons]; rfl

/-- The second and third row of R209: an IV alone, or blocks with 1 to 15 more bytes. -/
theorem decStream_truncated {s : State} (h : cleanLaunch s) (iv : Block) (cs : List Block) (rest : Block) {n : Nat}
    (hn : n ≤ 15) (hshort : cs = [] ∨ 1 ≤ n) :
    ∃ u, Begins (decAccesses iv cs rest n) s u .decryption (flatBytes (cbcDecrypt s.ks s.nr.val iv cs)) (fun _ => True)
        (16 + (16 * cs.length + n)) none
      ∧ standing u = .failed .streamTruncated := by
  obtain ⟨v, hstart, hv⟩ := begins_decStart h iv (16 * cs.length + n)
  obtain ⟨u, hbody, hu⟩ := hv.decBody_truncated cs rest hn hshort
  exact ⟨u, hstart.append hv.standing_decRun hbody, hu⟩

/-- The fourth row of R209: whole blocks, of which the last decrypts to `p`. -/
theorem decStream_full {s : State} (h : cleanLaunch s) (iv : Block) (cs : List Block) (c rest : Block)
    {ps : List Block} {p : Block} (hp : cbcDecrypt s.ks s.nr.val iv (cs ++ [c]) = ps ++ [p]) :
    ∃ u, Begins (decAccesses iv (cs ++ [c]) rest 0) s u .decryption (flatBytes ps ++ finalBytes p) (fun _ => True)
        (16 + 16 * (cs.length + 1)) none
      ∧ standing u = finalEnd p := by
  obtain ⟨v, hstart, hv⟩ := begins_decStart h iv (16 * (cs.length + 1))
  obtain ⟨u, hbody, hu⟩ := hv.decBody_full cs c rest
  rw [cbcDecrypt_concat] at hp
  obtain ⟨rfl, hlast⟩ := List.append_inj' hp rfl
  obtain rfl := List.singleton_inj.mp hlast
  exact ⟨u, hstart.append hv.standing_decRun hbody, hu⟩

/-- Settles O59: each row is a start and a body of its own. -/
theorem decryptionStream : Obligations.DecryptionStream := by
  intro s used h
  refine ⟨fun d m hm => ?_, fun iv rest => ?_, fun iv cs rest n hpos hn => ?_, fun iv cs c rest ps p hp => ?_⟩
  · obtain ⟨u, hall, hu⟩ := begins_decStart_truncated h d hm
    obtain ⟨ms, r, hs, hone, hkind, hout, hend, hdutiful⟩ := hall.one_stream
    exact ⟨u, ms, r, hs, hone, hkind, hend.trans hu, hout, hdutiful used trivial⟩
  · obtain ⟨u, hall, hu⟩ := decStream_truncated h iv [] rest (Nat.zero_le 15) (.inl rfl)
    obtain ⟨ms, r, hs, hone, hkind, hout, hend, hdutiful⟩ := hall.one_stream
    exact ⟨u, ms, r, hs, hone, hkind, hend.trans hu, hout, hdutiful used trivial⟩
  · obtain ⟨u, hall, hu⟩ := decStream_truncated h iv cs rest hn (.inr hpos)
    obtain ⟨ms, r, hs, hone, hkind, hout, hend, hdutiful⟩ := hall.one_stream
    refine ⟨u, ms, r, hs, hone, hkind, hend.trans hu, hout, ?_⟩
    rw [Nat.add_assoc]
    exact hdutiful used trivial
  · obtain ⟨u, hall, hu⟩ := decStream_full h iv cs c rest hp
    obtain ⟨ms, r, hs, hone, hkind, hout, hend, hdutiful⟩ := hall.one_stream
    refine ⟨u, ms, r, hs, hone, hkind, fun hv => ?_, fun hv => ?_, hdutiful used trivial⟩
    · exact ⟨hend.trans (hu.trans (if_pos hv)), by rw [hout, finalBytes, if_pos hv]⟩
    · have hv := ne_true_of_eq_false hv
      exact ⟨hend.trans (hu.trans (if_neg hv)), by rw [hout, finalBytes, if_neg hv, List.append_nil]⟩

/-! ### The round trip (R210) -/

/-- Decryption takes back encryption, block by block, from the same chaining value. -/
theorem cbcDecrypt_cbcEncrypt (ks : Vector Word 60) (nr : Nat) (cv : Block) (bs : List Block) :
    cbcDecrypt ks nr cv (cbcEncrypt ks nr cv bs) = bs := by
  induction bs generalizing cv with
  | nil => rfl
  | cons b bs ih => rw [cbcEncrypt, cbcDecrypt, invCipher_cipher, xorBlock_xorBlock, ih]

/-- The padding taken off a padded block leaves the bytes it was made of (R201, R207). -/
theorem take_pad (d : Block) {n : Nat} (hn : n ≤ 15) :
    (pad d n).toList.take (16 - (pad d n)[15].toNat) = d.toList.take n := by
  rw [toNat_last_pad d hn, Nat.sub_sub_self (by omega)]
  refine List.ext_getElem (by simp) fun i hi _ => ?_
  have hlt : i < n := hi.trans_le (List.length_take_le n _)
  simp [hlt]

/-- Settles O60: the decrypted blocks are the padded plaintext, whose padding is valid. -/
theorem streamRoundTrip : Obligations.StreamRoundTrip := by
  intro s s' iv blocks tail n hn h h' hks hnr
  obtain ⟨u, hall, hu, herr⟩ := encStream h iv blocks tail hn
  obtain ⟨ms, r, hs, hone, -, hout, hend, -⟩ := hall.one_stream
  refine ⟨u, ms, r, _, hs, hone, hend.trans (standing_eq_normally.mpr ⟨hu.stream, herr⟩), hout, fun rest => ?_⟩
  have hdec := cbcDecrypt_cbcEncrypt s.ks s.nr.val iv (blocks ++ [pad tail n])
  have hlength := length_cbcEncrypt s.ks s.nr.val iv (blocks ++ [pad tail n])
  obtain hnil | ⟨cs, c, hcs⟩ := List.eq_nil_or_concat' (cbcEncrypt s.ks s.nr.val iv (blocks ++ [pad tail n]))
  · simp [hnil] at hlength
  · rw [hcs, ← hks, ← hnr] at hdec
    rw [hcs]
    obtain ⟨-, -, -, hfull⟩ := decryptionStream s' [] h'
    obtain ⟨u', ms', r', hs', hone', -, hvalid, -⟩ := hfull iv cs c rest blocks (pad tail n) hdec
    obtain ⟨hend', hout'⟩ := hvalid (padValid_pad tail hn)
    exact ⟨u', ms', r', hs', hone', hend', hout'.trans (by rw [take_pad tail hn])⟩

end Sys2Proof.Machine
end

section
/-! PROOFS. The statements about the control commands and the host port (44_control.md): every command and every step of
a consistent machine completes, `NOP` and `RESET`, the two port maps, and what a step does with its access. -/

namespace Sys2Proof.Machine

/-! ### Completion (R245) -/

/-- The outcome is a next state: no fault, no refusal. -/
def Completes (o : Host.Outcome State Fault Refusal) : Prop := ∃ t, o = .next t

theorem completes_next (t : State) : Completes (.next t) := ⟨t, rfl⟩

theorem completes_ite {p : Prop} [Decidable p] {a b : Host.Outcome State Fault Refusal} (ha : Completes a)
    (hb : Completes b) : Completes (if p then a else b) := by
  split
  · exact ha
  · exact hb

section

variable (len : BitVec 6) (kb : BitVec 9) (s : State)

theorem execInit_completes : Completes (execInit len kb s) := by
  unfold execInit
  refine completes_ite (completes_next _) ?_
  cases requestedVariant kb with
  | none => exact completes_next _
  | some v => exact completes_ite (completes_next _) (completes_next _)

theorem execEcbEnc_completes : Completes (execEcbEnc s) :=
  completes_ite (completes_next _) (completes_next _)

theorem execEcbDec_completes : Completes (execEcbDec s) :=
  completes_ite (completes_next _) (completes_next _)

theorem execEncStart_completes : Completes (execEncStart s) :=
  completes_ite (completes_next _) (completes_next _)

theorem execEncBlock_completes : Completes (execEncBlock s) :=
  completes_ite (completes_next _) <| completes_ite (completes_next _) (completes_next _)

theorem execEncFinal_completes : Completes (execEncFinal len s) :=
  completes_ite (completes_next _) <| completes_ite (completes_next _) <| completes_ite (completes_next _)
    (completes_next _)

theorem execDecStart_completes : Completes (execDecStart len s) :=
  completes_ite (completes_next _) <| completes_ite (completes_next _) <| completes_ite (completes_next _)
    (completes_next _)

theorem execDecBlock_completes : Completes (execDecBlock s) :=
  completes_ite (completes_next _) <| completes_ite (completes_next _) (completes_next _)

theorem execDecFinal_completes : Completes (execDecFinal len s) :=
  completes_ite (completes_next _) <| completes_ite (completes_next _) <| completes_ite (completes_next _) <|
    completes_ite (completes_next _) <| completes_ite (completes_next _) (completes_next _)

end

/-- No command faults or is refused: every outcome of every command is a next state. -/
theorem exec_completes (i : Instr) (s : State) : Completes (exec i s) := by
  cases i with
  | nop len kb => exact completes_next s
  | init len kb => exact execInit_completes len kb s
  | ecbEnc len kb => exact execEcbEnc_completes s
  | ecbDec len kb => exact execEcbDec_completes s
  | encStart len kb => exact execEncStart_completes s
  | encBlock len kb => exact execEncBlock_completes s
  | encFinal len kb => exact execEncFinal_completes len s
  | decStart len kb => exact execDecStart_completes len s
  | decBlock len kb => exact execDecBlock_completes s
  | decFinal len kb => exact execDecFinal_completes len s
  | reset len kb => exact completes_next s.toReset

theorem perform_completes (w : Word) (s : State) : Completes (perform w s) := by
  cases hd : decode w with
  | ok i => exact perform_ok hd s ▸ exec_completes i s
  | error e => exact perform_error hd s ▸ completes_next _

/-- Settles O6: a word that decodes is a command, which completes; any other ends with `ILLEGAL_COMMAND`. -/
theorem everyCommandCompletes : Obligations.EveryCommandCompletes := perform_completes

theorem hostWrite_completes (i : Index) (v : Word) (s : State) : Completes (hostWrite i v s) := by
  unfold hostWrite
  cases portReg i with
  | ctrl => exact perform_completes v s
  | key j => exact completes_next _
  | iv j => exact completes_next _
  | din j => exact completes_next _
  | _ => exact completes_next s

/-- With `BUSY = 0` no access is forbidden (R298). -/
theorem access_completes {s : State} (hb : s.busy = false) (a : Access) : Completes (access a s) := by
  cases a with
  | read i => exact access_read hb i ▸ completes_next _
  | write i v => exact access_write hb i v ▸ hostWrite_completes i v s
  | hardwareReset => exact access_hardwareReset s ▸ completes_next _

/-- Settles O55: the invariant has `BUSY = 0`, so whatever access is next, if any, completes. -/
theorem consistentStepsComplete : Obligations.ConsistentStepsComplete := by
  intro s h
  cases hp : s.pending with
  | nil => exact ⟨s, step_nil hp⟩
  | cons a rest => exact step_cons hp ▸ access_completes (s := { s with pending := rest }) h.idle a

/-! ### `NOP`, `RESET` and hardware reset (R241, R242, R290) -/

/-- Settles O44: the arm of `NOP` answers the state it was given. -/
theorem nopCommand : Obligations.NopCommand := fun _ _ _ => rfl

/-- The platform's reset is the command `RESET`, whatever its operand fields. -/
theorem access_hardwareReset_eq_exec_reset (len : BitVec 6) (kb : BitVec 9) (s : State) :
    access .hardwareReset s = exec (.reset len kb) s :=
  access_hardwareReset s

/-- Settles O45: `toReset` is the state written out, with the drawn values in the sequencing registers. -/
theorem resetCommand : Obligations.ResetCommand := fun s len kb =>
  ⟨_, _, _, _, _, rfl, access_hardwareReset_eq_exec_reset len kb s⟩

/-! ### What a read of each index returns (R243) -/

section

variable {i : Index}

theorem hostRead_status (h : i.toNat = 0x01) (s : State) : hostRead i s = status s := by
  obtain rfl : i = 1#7 := BitVec.eq_of_toNat_eq h
  unfold hostRead; rw [portReg_eq_status.mpr rfl]

theorem hostRead_iv {j : Fin 4} (h : i.toNat = 0x0C + j.val) (s : State) : hostRead i s = s.iv[j] := by
  unfold hostRead; rw [portReg_eq_iv.mpr h]

theorem hostRead_din {j : Fin 4} (h : i.toNat = 0x10 + j.val) (s : State) : hostRead i s = s.din[j] := by
  unfold hostRead; rw [portReg_eq_din.mpr h]

theorem hostRead_dout {j : Fin 4} (h : i.toNat = 0x14 + j.val) (s : State) : hostRead i s = s.dout[j] := by
  unfold hostRead; rw [portReg_eq_dout.mpr h]

theorem hostRead_cv {j : Fin 4} (h : i.toNat = 0x18 + j.val) (s : State) :
    hostRead i s = (blockWords s.cv)[j] := by
  unfold hostRead; rw [portReg_eq_cv.mpr h]

theorem hostRead_ks {k : Fin 60} (h : i.toNat = 0x40 + k.val) (s : State) : hostRead i s = ksWindow s k := by
  unfold hostRead; rw [portReg_eq_ks.mpr h]

/-- The write-only registers and the reserved indices read 0. -/
theorem hostRead_zero
    (h : i.toNat = 0x00 ∨ (0x02 ≤ i.toNat ∧ i.toNat ≤ 0x0B) ∨ (0x1C ≤ i.toNat ∧ i.toNat ≤ 0x3F) ∨ 0x7C ≤ i.toNat)
    (s : State) : hostRead i s = 0#32 := by
  unfold hostRead
  split <;> rename_i hp
  · rfl
  · rw [portReg_eq_status.mp hp] at h; exact absurd h (by decide)
  · rfl
  · have := portReg_eq_iv.mp hp; omega
  · have := portReg_eq_din.mp hp; omega
  · have := portReg_eq_dout.mp hp; omega
  · have := portReg_eq_cv.mp hp; omega
  · have := portReg_eq_ks.mp hp; omega
  · rfl

end

/-- Word `j` of a block, big-endian (R62). -/
theorem getElem_blockWords (b : Block) (j : Fin 4) : (blockWords b)[j] =
    word (b[4 * j.val]'(by omega)) (b[4 * j.val + 1]'(by omega)) (b[4 * j.val + 2]'(by omega))
      (b[4 * j.val + 3]'(by omega)) := by
  simp only [blockWords, Fin.getElem_fin, Vector.getElem_ofFn]

/-- Settles O48: one equation per register. -/
theorem hostReadMap : Obligations.HostReadMap := by
  rintro s i _ rfl
  exact ⟨(hostRead_status · s), fun _ => (hostRead_iv · s), fun _ => (hostRead_din · s), fun _ => (hostRead_dout · s),
    fun j h => (hostRead_cv h s).trans (getElem_blockWords s.cv j), fun _ => (hostRead_ks · s), (hostRead_zero · s)⟩

/-! ### What a write of each index does (R244) -/

/-- Writes to read-only registers and reserved indices are ignored. -/
theorem hostWrite_ignored {i : Index} (h : (0x01 ≤ i.toNat ∧ i.toNat ≤ 0x03) ∨ 0x14 ≤ i.toNat) (v : Word) (s : State) :
    hostWrite i v s = .next s := by
  obtain ⟨t, ht⟩ := hostWrite_completes i v s
  obtain ⟨rfl, -⟩ | ⟨j, hj, -⟩ | ⟨j, hj, -⟩ | ⟨j, hj, -⟩ | ⟨-, rfl⟩ := hostWrite_cases ht
  · exact absurd h (by decide)
  · omega
  · omega
  · omega
  · exact ht

/-- Settles O49: one equation per register. -/
theorem hostWriteMap : Obligations.HostWriteMap := by
  rintro s i v _ rfl
  refine ⟨fun h => ?_, fun _ => (hostWrite_key · v s), fun _ => (hostWrite_iv · v s), fun _ => (hostWrite_din · v s),
    (hostWrite_ignored · v s)⟩
  obtain rfl : i = 0#7 := BitVec.eq_of_toNat_eq h
  exact hostWrite_ctrl v s

/-! ### What a step does with its access (R245, R246) -/

/-- A step whose next access is a write, with `BUSY = 0`. -/
theorem step_write {s : State} {x : Index} {v : Word} {rest : List Access} (hb : s.busy = false)
    (hp : s.pending = .write x v :: rest) : step s = hostWrite x v { s with pending := rest } :=
  (step_cons hp).trans (access_write (s := { s with pending := rest }) hb x v)

/-- Settles O52: the access taken off is made, and a `CTRL` write performs the command its word encodes. -/
theorem stepRunsTheDecodedCommand : Obligations.StepRunsTheDecodedCommand := by
  refine ⟨fun s w i rest hb hp hd => ?_, fun _ _ _ _ => step_write,
    fun _ _ len kb hp => (step_cons hp).trans (access_hardwareReset_eq_exec_reset len kb _), fun _ => step_nil⟩
  rw [step_write hb hp, hostWrite_ctrl, perform_ok hd]

end Sys2Proof.Machine
end

section
/-! PROOFS. The statements about errors (60_exceptions.md): which error a command reports, and what it changes then. Both
follow from one fact, `exec_endsWith`: how each command ends, told from the first error that applies to it. -/

namespace Sys2Proof.Machine

/-! ### The first error that applies (R260, R262) -/

/-- The first error of R262's list, `NONE` when the list is empty. -/
def firstError (i : Instr) (s : State) : ErrCode := (SpecTable.errors i s).head?.getD .none

/-- The errors at the end of R262's order, looked for once the key and the stream state are right: those of a short or
badly padded last block (R206, R207). -/
def dataErrors (i : Instr) (s : State) : List ErrCode :=
  match i with
  | .decStart len _ => if len.toNat < 16 then [.streamTruncated] else []
  | .decFinal len _ =>
    (if len.toNat < 16 then [.streamTruncated] else [])
    ++ (if padValid (SpecTable.decrypted s) = false then [.paddingInvalid] else [])
  | _ => []

/-- The `LEN` range of R84's table is the one the decoder checks. -/
theorem maxLen_lt_len_iff (i : Instr) : SpecTable.maxLen i < i.len.toNat ↔ i.wellFormed = false := by
  cases i with
  | _ len kb => simp [SpecTable.maxLen, Instr.len, Instr.wellFormed, Nat.le_of_lt_succ len.isLt]

section

variable {i : Instr} {s : State}

theorem firstError_illegal (hwf : i.wellFormed = false) : firstError i s = .illegalCommand := by
  simp [firstError, SpecTable.errors, (maxLen_lt_len_iff i).mpr hwf]

/-- The errors of a command that has passed the range check and is not `INIT`. -/
theorem errors_of_wellFormed (hwf : i.wellFormed = true) (hi : ∀ len kb, i ≠ .init len kb) :
    SpecTable.errors i s =
      (if SpecTable.needsKey i = true ∧ s.ksValid = false then [.noKey] else [])
      ++ (if ∃ st ∈ SpecTable.requiredStream i, s.stream ≠ st then [.badSequence] else [])
      ++ dataErrors i s := by
  have hlen : ¬SpecTable.maxLen i < i.len.toNat := by simp [maxLen_lt_len_iff, hwf]
  cases i with
  | init len kb => exact absurd rfl (hi len kb)
  | _ len kb => simp [SpecTable.errors, hlen, SpecTable.requiredStream, dataErrors]

theorem firstError_noKey (hwf : i.wellFormed = true) (hn : SpecTable.needsKey i = true) (hk : s.ksValid = false) :
    firstError i s = .noKey := by
  have hi : ∀ len kb, i ≠ .init len kb := by rintro len kb rfl; cases hn
  simp [firstError, errors_of_wellFormed hwf hi, hn, hk]

theorem firstError_badSequence {st : StreamState} (hwf : i.wellFormed = true) (hk : s.ksValid = true)
    (hr : SpecTable.requiredStream i = some st) (hs : s.stream ≠ st) : firstError i s = .badSequence := by
  have hi : ∀ len kb, i ≠ .init len kb := by rintro len kb rfl; cases hr
  simp [firstError, errors_of_wellFormed hwf hi, hk, hr, hs]

/-- With the key and the stream state it needs, only the data of a command other than `INIT` can fail it. -/
theorem firstError_ready (hwf : i.wellFormed = true) (hi : ∀ len kb, i ≠ .init len kb)
    (hk : SpecTable.needsKey i = true → s.ksValid = true)
    (hs : SpecTable.requiredStream i = none ∨ SpecTable.requiredStream i = some s.stream) :
    firstError i s = (dataErrors i s).head?.getD .none := by
  have hkey : ¬(SpecTable.needsKey i = true ∧ s.ksValid = false) := fun ⟨hn, hf⟩ => by simp [hk hn] at hf
  have hstream : ¬∃ st ∈ SpecTable.requiredStream i, s.stream ≠ st := by obtain hs | hs := hs <;> simp [hs]
  rw [firstError, errors_of_wellFormed hwf hi, if_neg hkey, if_neg hstream]
  rfl

variable {len : BitVec 6} {kb : BitVec 9}

/-- `INIT` with a legal `LEN` looks at the variant, then at the length of the key. -/
theorem firstError_init (hl : len.toNat ≤ 32) : firstError (.init len kb) s =
    if requestedVariant kb = none then .unsupportedVariant
    else if 8 * len.toNat < kb.toNat then .invalidKeyLength else .none := by
  have hlist : SpecTable.errors (.init len kb) s = (if requestedVariant kb = none then [.unsupportedVariant] else [])
      ++ (if 8 * len.toNat < kb.toNat then [.invalidKeyLength] else []) := by
    simp [SpecTable.errors, SpecTable.maxLen, Instr.len, Nat.not_lt.mpr hl, SpecTable.needsKey, SpecTable.requiredStream,
      requestedVariant_eq_none]
  rw [firstError, hlist]
  split_ifs <;> rfl

end

/-! ### How a command ends (R263) -/

/-- What the state after a command is, from the state `s` before it and the error reported: R263's list, and after
`PADDING_INVALID` also what R207 has written by then (log entry 17). -/
inductive EndsWith (s : State) : ErrCode → State → Prop where
  | refused {c : ErrCode} (hc : c = .illegalCommand ∨ c = .noKey ∨ c = .badSequence) : EndsWith s c (s.fail c)
  | truncated : EndsWith s .streamTruncated ({ s with stream := .failed }.fail .streamTruncated)
  | unkeyed {c : ErrCode} (hc : c = .unsupportedVariant ∨ c = .invalidKeyLength) : EndsWith s c (s.clearKS.fail c)
  | badPadding : EndsWith s .paddingInvalid ({ s with
      nextIv := inputBlock s, state := invCipher s.ks s.nr.val (inputBlock s), cv := inputBlock s
      stream := .failed }.fail .paddingInvalid).sequencersFree
  | succeeded {t : State} (he : t.err = .none) : EndsWith s .none t

theorem EndsWith.err {s t : State} {c : ErrCode} (h : EndsWith s c t) : t.err = c := by
  cases h with
  | succeeded he => exact he
  | _ => rfl

section

variable {i : Instr} {s t : State}

theorem endsWith_illegal (hwf : i.wellFormed = false) : EndsWith s (firstError i s) (s.fail .illegalCommand) := by
  rw [firstError_illegal hwf]
  exact .refused (.inl rfl)

theorem endsWith_noKey (hwf : i.wellFormed = true) (hn : SpecTable.needsKey i = true) (hk : s.ksValid = false) :
    EndsWith s (firstError i s) (s.fail .noKey) := by
  rw [firstError_noKey hwf hn hk]
  exact .refused (.inr (.inl rfl))

theorem endsWith_badSequence {st : StreamState} (hwf : i.wellFormed = true) (hk : s.ksValid = true)
    (hr : SpecTable.requiredStream i = some st) (hs : s.stream ≠ st) :
    EndsWith s (firstError i s) (s.fail .badSequence) := by
  rw [firstError_badSequence hwf hk hr hs]
  exact .refused (.inr (.inr rfl))

/-- A command that finds its key and its stream state, and no fault in its data, succeeds. -/
theorem endsWith_success (hwf : i.wellFormed = true) (hi : ∀ len kb, i ≠ .init len kb)
    (hk : SpecTable.needsKey i = true → s.ksValid = true)
    (hs : SpecTable.requiredStream i = none ∨ SpecTable.requiredStream i = some s.stream) (hd : dataErrors i s = [])
    (he : t.err = .none) : EndsWith s (firstError i s) t := by
  rw [firstError_ready hwf hi hk hs, hd]
  exact .succeeded he

variable {len : BitVec 6} {kb : BitVec 9}

theorem execInit_endsWith (h : execInit len kb s = .next t) : EndsWith s (firstError (.init len kb) s) t := by
  obtain ⟨hl, rfl⟩ | ⟨hl, hv, rfl⟩ | ⟨v, hl, hv, hlt, rfl⟩ | ⟨v, hl, hv, hle, rfl⟩ := execInit_cases h
  · exact endsWith_illegal (decide_eq_false (Nat.not_le.mpr hl))
  · rw [firstError_init hl, if_pos hv]
    exact .unkeyed (.inl rfl)
  · have hshort : 8 * len.toNat < kb.toNat := by rw [requestedVariant_eq_some.mp hv]; omega
    rw [firstError_init hl, if_neg (by simp [hv]), if_pos hshort]
    exact .unkeyed (.inr rfl)
  · have hlong : ¬8 * len.toNat < kb.toNat := by rw [requestedVariant_eq_some.mp hv]; omega
    rw [firstError_init hl, if_neg (by simp [hv]), if_neg hlong]
    exact .succeeded rfl

theorem execEncFinal_endsWith (h : execEncFinal len s = .next t) : EndsWith s (firstError (.encFinal len kb) s) t := by
  obtain ⟨hl, rfl⟩ | ⟨hl, hk, rfl⟩ | ⟨hl, hk, hs, rfl⟩ | ⟨hl, hk, hs, c, -, rfl⟩ := execEncFinal_cases h
  · exact endsWith_illegal (decide_eq_false (Nat.not_le.mpr hl))
  · exact endsWith_noKey (decide_eq_true hl) rfl hk
  · exact endsWith_badSequence (decide_eq_true hl) hk rfl hs
  · exact endsWith_success (decide_eq_true hl) nofun (fun _ => hk) (.inr (congrArg some hs.symm)) rfl rfl

theorem execDecStart_endsWith (h : execDecStart len s = .next t) : EndsWith s (firstError (.decStart len kb) s) t := by
  obtain ⟨hl, rfl⟩ | ⟨hl, hk, rfl⟩ | ⟨hl, hk, rfl⟩ | ⟨hl, hk, rfl⟩ := execDecStart_cases h
  · exact endsWith_illegal (decide_eq_false (Nat.not_le.mpr hl))
  · exact endsWith_noKey (decide_eq_true hl) rfl hk
  · have hready := firstError_ready (i := .decStart len kb) (decide_eq_true hl.le) nofun (fun _ => hk) (.inl rfl)
    rw [hready, dataErrors, if_pos hl]
    exact .truncated
  · exact endsWith_success (decide_eq_true hl.le) nofun (fun _ => hk) (.inl rfl) (if_neg hl.not_lt) rfl

theorem execDecFinal_endsWith (h : execDecFinal len s = .next t) : EndsWith s (firstError (.decFinal len kb) s) t := by
  have hready (hl : len.toNat ≤ 16) (hk : s.ksValid = true) (hs : s.stream = .decRun) :=
    firstError_ready (i := .decFinal len kb) (decide_eq_true hl) nofun (fun _ => hk) (.inr (congrArg some hs.symm))
  obtain ⟨hl, rfl⟩ | ⟨hl, hk, rfl⟩ | ⟨hl, hk, hs, rfl⟩ | ⟨hl, hk, hs, rfl⟩ |
    ⟨hl, hk, hs, o, p, rfl, rfl, ⟨hp, rfl⟩ | ⟨hp, rfl⟩⟩ := execDecFinal_cases h
  · exact endsWith_illegal (decide_eq_false (Nat.not_le.mpr hl))
  · exact endsWith_noKey (decide_eq_true hl) rfl hk
  · exact endsWith_badSequence (decide_eq_true hl) hk rfl hs
  · rw [hready hl.le hk hs, dataErrors, if_pos hl]
    exact .truncated
  · have hvalid : padValid (SpecTable.decrypted s) = true := hp
    rw [hready hl.le hk hs, dataErrors, if_neg hl.not_lt, if_neg (ne_false_of_eq_true hvalid)]
    exact .succeeded rfl
  · have hinvalid : padValid (SpecTable.decrypted s) = false := hp
    rw [hready hl.le hk hs, dataErrors, if_neg hl.not_lt, if_pos hinvalid]
    exact .badPadding

end

/-- Every command but `NOP` ends as R263 says of the first error that applies to it. -/
theorem exec_endsWith {i : Instr} {s t : State} (h : exec i s = .next t) (hn : ∀ len kb, i ≠ .nop len kb) :
    EndsWith s (firstError i s) t := by
  cases i with
  | nop len kb => exact absurd rfl (hn len kb)
  | init len kb => exact execInit_endsWith h
  | ecbEnc len kb =>
    obtain ⟨hk, rfl⟩ | ⟨hk, rfl⟩ := execEcbEnc_cases h
    · exact endsWith_noKey rfl rfl hk
    · exact endsWith_success rfl nofun (fun _ => hk) (.inl rfl) rfl rfl
  | ecbDec len kb =>
    obtain ⟨hk, rfl⟩ | ⟨hk, rfl⟩ := execEcbDec_cases h
    · exact endsWith_noKey rfl rfl hk
    · exact endsWith_success rfl nofun (fun _ => hk) (.inl rfl) rfl rfl
  | encStart len kb =>
    obtain ⟨hk, rfl⟩ | ⟨hk, rfl⟩ := execEncStart_cases h
    · exact endsWith_noKey rfl rfl hk
    · exact endsWith_success rfl nofun (fun _ => hk) (.inl rfl) rfl rfl
  | encBlock len kb =>
    obtain ⟨hk, rfl⟩ | ⟨hk, hs, rfl⟩ | ⟨hk, hs, c, -, rfl⟩ := execEncBlock_cases h
    · exact endsWith_noKey rfl rfl hk
    · exact endsWith_badSequence rfl hk rfl hs
    · exact endsWith_success rfl nofun (fun _ => hk) (.inr (congrArg some hs.symm)) rfl rfl
  | encFinal len kb => exact execEncFinal_endsWith h
  | decStart len kb => exact execDecStart_endsWith h
  | decBlock len kb =>
    obtain ⟨hk, rfl⟩ | ⟨hk, hs, rfl⟩ | ⟨hk, hs, o, -, rfl⟩ := execDecBlock_cases h
    · exact endsWith_noKey rfl rfl hk
    · exact endsWith_badSequence rfl hk rfl hs
    · exact endsWith_success rfl nofun (fun _ => hk) (.inr (congrArg some hs.symm)) rfl rfl
  | decFinal len kb => exact execDecFinal_endsWith h
  | reset len kb =>
    obtain rfl := execReset_cases h
    exact endsWith_success rfl nofun nofun (.inl rfl) rfl rfl

/-- Settles O39: a command ends with its first error; a word that does not decode is one call of `fail`. -/
theorem errorPriority : Obligations.ErrorPriority :=
  ⟨fun _ _ _ h hn => (exec_endsWith h hn).err, fun _ _ s hd => perform_error hd s⟩

/-- Settles O41: each way to end writes what R263 lists for its error, and reports no other. -/
theorem errorsArePrecise : Obligations.ErrorsArePrecise := by
  intro i s t h hn
  have hend := exec_endsWith h hn
  generalize firstError i s = c at hend
  cases hend with
  | refused hc => obtain rfl | rfl | rfl := hc <;> exact ⟨fun _ => rfl, nofun, nofun, nofun⟩
  | truncated => exact ⟨nofun, fun _ => rfl, nofun, nofun⟩
  | unkeyed hc => obtain rfl | rfl := hc <;> exact ⟨nofun, nofun, fun _ => rfl, nofun⟩
  | badPadding => exact ⟨nofun, nofun, nofun, fun _ => ⟨_, _, _, _, _, rfl⟩⟩
  | succeeded he => rw [he]; exact ⟨nofun, nofun, nofun, nofun⟩

end Sys2Proof.Machine
end

section
/-! PROOFS. The statements about reset, access hazards and runs (70_reset_and_hazards.md): the values after reset, accesses
while the core is busy, which registers a command leaves alone, and how the streams of a run begin and end. -/

namespace Sys2Proof.Machine

/-! ### Reset (R290) -/

theorem status_reset : status State.reset = 0x00000000#32 := by decide

/-- Settles O46, value by value. -/
theorem resetValues : Obligations.ResetValues := by
  rintro _ rfl
  exact ⟨State.reset_keybuf, State.reset_iv, State.reset_din, State.reset_dout, State.reset_cv, State.reset_nextIv,
    State.reset_state, State.reset_ks, State.reset_ksValid, State.reset_nk, State.reset_nr, State.reset_stream,
    State.reset_err, State.reset_outCount, State.reset_busy, status_reset⟩

/-- Settles O53: `State.reset` is what `RESET` leaves but for the sequencing registers, at which the invariant does not
look. -/
theorem consistentAtReset : Obligations.ConsistentAtReset :=
  have h := consistent_toReset State.reset
  ⟨h.idle, h.keyed, h.unkeyed, h.failedSilent⟩

/-! ### Accesses while `BUSY = 1` (R298) -/

theorem access_busy {a : Access} {s : State} (hb : s.busy = true) (ha : allowedWhileBusy a = false) :
    access a s = .fault .hostAccessWhileBusy := if_pos ⟨hb, ha⟩

theorem allowedWhileBusy_read {i : Index} : allowedWhileBusy (.read i) = true ↔ i = 1#7 :=
  decide_eq_true_iff.trans portReg_eq_status

/-- A read of `STATUS` is made, `BUSY` or not. -/
theorem access_read_status (s : State) : access (.read 1#7) s = .next { s with replies := status s :: s.replies } := by
  have hread : hostRead 1#7 s = status s := hostRead_status rfl s
  unfold access
  rw [if_neg (by simp [allowedWhileBusy_read.mpr]), ← hread]

/-- Settles O51: an access that R298 forbids faults, and a `STATUS` read is not one. -/
theorem accessWhileBusyFaults : Obligations.AccessWhileBusyFaults := by
  intro s rest hb
  refine ⟨fun i v hp => ?_, fun i hi hp => ?_, fun hp => ?_⟩
  · exact (step_cons hp).trans (access_busy hb rfl)
  · have hforbidden : allowedWhileBusy (.read i) = false := eq_false_of_ne_true (mt allowedWhileBusy_read.mp hi)
    exact (step_cons hp).trans (access_busy hb hforbidden)
  · exact (step_cons hp).trans (access_read_status _)

/-! ### The registers that a command only reads (R300) -/

/-- The host's input registers, `BUSY` and the host's side are the same in both states. -/
def SameInputs (s t : State) : Prop :=
  t.keybuf = s.keybuf ∧ t.iv = s.iv ∧ t.din = s.din ∧ t.busy = s.busy ∧ t.pending = s.pending ∧ t.replies = s.replies

/-- Every command but `RESET` leaves its inputs alone, whatever its outcome. -/
theorem exec_sameInputs {i : Instr} {s t : State} (h : exec i s = .next t) (hr : ∀ l k, i ≠ .reset l k) :
    SameInputs s t := by
  have hrefl : SameInputs s s := ⟨rfl, rfl, rfl, rfl, rfl, rfl⟩
  cases i with
  | nop len kb => obtain rfl := execNop_cases h; exact hrefl
  | init len kb =>
    obtain ⟨-, rfl⟩ | ⟨-, -, rfl⟩ | ⟨v, -, -, -, rfl⟩ | ⟨v, -, -, -, rfl⟩ := execInit_cases h <;> exact hrefl
  | ecbEnc len kb => obtain ⟨-, rfl⟩ | ⟨-, rfl⟩ := execEcbEnc_cases h <;> exact hrefl
  | ecbDec len kb => obtain ⟨-, rfl⟩ | ⟨-, rfl⟩ := execEcbDec_cases h <;> exact hrefl
  | encStart len kb => obtain ⟨-, rfl⟩ | ⟨-, rfl⟩ := execEncStart_cases h <;> exact hrefl
  | encBlock len kb => obtain ⟨-, rfl⟩ | ⟨-, -, rfl⟩ | ⟨-, -, c, -, rfl⟩ := execEncBlock_cases h <;> exact hrefl
  | encFinal len kb =>
    obtain ⟨-, rfl⟩ | ⟨-, -, rfl⟩ | ⟨-, -, -, rfl⟩ | ⟨-, -, -, c, -, rfl⟩ := execEncFinal_cases h <;> exact hrefl
  | decStart len kb =>
    obtain ⟨-, rfl⟩ | ⟨-, -, rfl⟩ | ⟨-, -, rfl⟩ | ⟨-, -, rfl⟩ := execDecStart_cases h <;> exact hrefl
  | decBlock len kb => obtain ⟨-, rfl⟩ | ⟨-, -, rfl⟩ | ⟨-, -, o, -, rfl⟩ := execDecBlock_cases h <;> exact hrefl
  | decFinal len kb =>
    obtain ⟨-, rfl⟩ | ⟨-, -, rfl⟩ | ⟨-, -, -, rfl⟩ | ⟨-, -, -, rfl⟩ |
      ⟨-, -, -, o, p, -, -, ⟨-, rfl⟩ | ⟨-, rfl⟩⟩ := execDecFinal_cases h <;> exact hrefl
  | reset len kb => exact absurd rfl (hr len kb)

/-- Settles O42: the frame of every command but `RESET`. -/
theorem inputRegistersAreNotConsumed : Obligations.InputRegistersAreNotConsumed := fun _ _ _ => exec_sameInputs

/-! ### Who reads `KEYBUF` (R302, R24) -/

/-- If the first outcome is a next state, the second is that state with the key `kb` in `KEYBUF`. -/
def Rekeyed (kb : Vector Word 8) (o o' : Host.Outcome State Fault Refusal) : Prop :=
  ∀ t, o = .next t → o' = .next { t with keybuf := kb }

theorem rekeyed_next (kb : Vector Word 8) (t : State) : Rekeyed kb (.next t) (.next { t with keybuf := kb }) := by
  intro u h
  injection h with h
  rw [h]

theorem rekeyed_ite {kb : Vector Word 8} {p : Prop} [Decidable p] {a a' b b' : Host.Outcome State Fault Refusal}
    (ha : Rekeyed kb a a') (hb : Rekeyed kb b b') : Rekeyed kb (if p then a else b) (if p then a' else b') := by
  by_cases hp : p
  · rw [if_pos hp, if_pos hp]; exact ha
  · rw [if_neg hp, if_neg hp]; exact hb

section

variable (kb : Vector Word 8) (s : State) (len : BitVec 6)

theorem execEcbEnc_rekeyed : Rekeyed kb (execEcbEnc s) (execEcbEnc { s with keybuf := kb }) :=
  rekeyed_ite (rekeyed_next kb _) (rekeyed_next kb _)

theorem execEcbDec_rekeyed : Rekeyed kb (execEcbDec s) (execEcbDec { s with keybuf := kb }) :=
  rekeyed_ite (rekeyed_next kb _) (rekeyed_next kb _)

theorem execEncStart_rekeyed : Rekeyed kb (execEncStart s) (execEncStart { s with keybuf := kb }) :=
  rekeyed_ite (rekeyed_next kb _) (rekeyed_next kb _)

theorem execEncBlock_rekeyed : Rekeyed kb (execEncBlock s) (execEncBlock { s with keybuf := kb }) :=
  rekeyed_ite (rekeyed_next kb _) <| rekeyed_ite (rekeyed_next kb _) (rekeyed_next kb _)

theorem execEncFinal_rekeyed : Rekeyed kb (execEncFinal len s) (execEncFinal len { s with keybuf := kb }) :=
  rekeyed_ite (rekeyed_next kb _) <| rekeyed_ite (rekeyed_next kb _) <| rekeyed_ite (rekeyed_next kb _)
    (rekeyed_next kb _)

theorem execDecStart_rekeyed : Rekeyed kb (execDecStart len s) (execDecStart len { s with keybuf := kb }) :=
  rekeyed_ite (rekeyed_next kb _) <| rekeyed_ite (rekeyed_next kb _) <| rekeyed_ite (rekeyed_next kb _)
    (rekeyed_next kb _)

theorem execDecBlock_rekeyed : Rekeyed kb (execDecBlock s) (execDecBlock { s with keybuf := kb }) :=
  rekeyed_ite (rekeyed_next kb _) <| rekeyed_ite (rekeyed_next kb _) (rekeyed_next kb _)

theorem execDecFinal_rekeyed : Rekeyed kb (execDecFinal len s) (execDecFinal len { s with keybuf := kb }) :=
  rekeyed_ite (rekeyed_next kb _) <| rekeyed_ite (rekeyed_next kb _) <| rekeyed_ite (rekeyed_next kb _) <|
    rekeyed_ite (rekeyed_next kb _) <| rekeyed_ite (rekeyed_next kb _) (rekeyed_next kb _)

/-- Every command that neither loads the key nor clears `KEYBUF` does the same with another key there. -/
theorem exec_rekeyed {i : Instr} (hi : ¬WritesSchedule i) : Rekeyed kb (exec i s) (exec i { s with keybuf := kb }) := by
  cases i with
  | nop l k => exact rekeyed_next kb s
  | init l k => exact absurd ⟨l, k, .inl rfl⟩ hi
  | ecbEnc l k => exact execEcbEnc_rekeyed kb s
  | ecbDec l k => exact execEcbDec_rekeyed kb s
  | encStart l k => exact execEncStart_rekeyed kb s
  | encBlock l k => exact execEncBlock_rekeyed kb s
  | encFinal l k => exact execEncFinal_rekeyed kb s l
  | decStart l k => exact execDecStart_rekeyed kb s l
  | decBlock l k => exact execDecBlock_rekeyed kb s
  | decFinal l k => exact execDecFinal_rekeyed kb s l
  | reset l k => exact absurd ⟨l, k, .inr rfl⟩ hi

/-- No host read shows `KEYBUF`. -/
theorem hostRead_rekeyed (x : Index) : hostRead x { s with keybuf := kb } = hostRead x s := by
  unfold hostRead
  cases portReg x <;> rfl

end

/-- Settles O43: a command branches on other fields alone, `RESET` overwrites `KEYBUF`, and no index reads it. -/
theorem keyBufferIsReadOnlyByInit : Obligations.KeyBufferIsReadOnlyByInit := by
  intro i s t kb h hinit
  refine ⟨fun hreset => ?_, fun l k hi => ?_, hostRead_rekeyed kb s⟩
  · have hi : ¬WritesSchedule i := by
      rintro ⟨l, k, rfl | rfl⟩
      · exact hinit l k rfl
      · exact hreset l k rfl
    exact exec_rekeyed kb s hi t h
  · subst hi
    exact h

/-! ### What an access does to `STREAM` (R200, R303) -/

/-- A stream is open: `STREAM` is `ENC_RUN` or `DEC_RUN`. -/
def StreamState.isOpen (st : StreamState) : Prop := st = .encRun ∨ st = .decRun

/-- The result codes of a stream that fails. -/
def FatalCode (c : ErrCode) : Prop := c = .streamTruncated ∨ c = .paddingInvalid

/-- Where R303 lets a command of a stream leave the core: the stream open, ended normally, or failed with a fatal code. -/
def State.inStreamByTheRule (s : State) : Prop :=
  s.stream.isOpen ∨ (s.stream = .done ∧ s.err = .none) ∨ (s.stream = .failed ∧ FatalCode s.err)

/-- The recorded access takes the state before it to the state after it, as every access of a run does. -/
def Made.happened (m : Made) : Prop := Machine.access m.access m.before = .next m.after

/-- A command is issued by a `CTRL` write of a word that decodes to it (R245). -/
theorem issued_eq_some {a : Access} {i : Instr} (h : issued a = some i) : ∃ w, a = .write 0#7 w ∧ decode w = .ok i := by
  unfold issued at h
  split at h
  · cases h
  · cases h
  · rename_i x w
    split at h
    · rename_i hx
      obtain rfl := portReg_eq_ctrl.mp hx
      split at h
      · cases h
      · rename_i hd
        injection h with h
        exact ⟨w, rfl, h ▸ hd⟩
      · cases h
    · cases h

section

variable {m : Made} (hm : m.happened)
include hm

/-- An access that issues a command performs it. -/
theorem Made.happened.exec {i : Instr} (hi : issued m.access = some i) : exec i m.before = .next m.after := by
  obtain ⟨w, ha, hd⟩ := issued_eq_some hi
  rw [Made.happened, ha] at hm
  obtain ⟨x, hx, -⟩ | ⟨x, v, hx, -, hw⟩ | ⟨hx, -⟩ := access_cases hm
  · cases hx
  · cases hx
    rw [← perform_ok hd, ← hostWrite_ctrl, hw]
  · cases hx

/-- Only a command and hardware reset change `STREAM`. -/
theorem Made.happened.stream : (∃ i, issued m.access = some i) ∨ (m.access = .hardwareReset ∧ m.after.stream = .idle)
    ∨ m.after.stream = m.before.stream := by
  obtain ⟨x, -, ht⟩ | ⟨x, v, ha, -, hw⟩ | ⟨ha, ht⟩ := access_cases hm
  · exact .inr (.inr (by rw [ht]))
  · obtain ⟨rfl, hp⟩ | ⟨j, -, ht⟩ | ⟨j, -, ht⟩ | ⟨j, -, ht⟩ | ⟨-, ht⟩ := hostWrite_cases hw
    · cases hd : decode v with
      | error e =>
        rw [perform_error hd] at hp
        injection hp with hp
        exact .inr (.inr (by rw [← hp, State.fail_stream]))
      | ok i =>
        by_cases hn : ∃ l k, i = .nop l k
        · obtain ⟨l, k, rfl⟩ := hn
          exact .inr (.inr (exec_stream ((perform_ok hd _).symm.trans hp)))
        · push Not at hn
          exact .inl ⟨i, ha ▸ (issued_ok hd hn).2⟩
    all_goals exact .inr (.inr (by rw [ht]))
  · exact .inr (.inl ⟨ha, by rw [ht]; rfl⟩)

/-- A `START` that begins a stream leaves it open or failed (R202, R206). -/
theorem Made.happened.inStream_of_opens {k : StreamKind} (ho : m.opens = some k) : m.after.inStreamByTheRule := by
  unfold Made.opens at ho
  split at ho
  · rename_i hi
    have hs := exec_stream (hm.exec hi)
    split at ho
    · rename_i he
      exact .inl (.inl (by rw [hs, SpecTable.streamAfter, if_pos he]))
    · cases ho
  · rename_i hi
    have hs := exec_stream (hm.exec hi)
    split at ho
    · rename_i he
      obtain he | he := he
      · exact .inl (.inr (by rw [hs, he]; rfl))
      · exact .inr (.inr ⟨by rw [hs, he]; rfl, .inl he⟩)
    · cases ho
  · cases ho

end

/-- A command given in an open stream leaves the core as R303 says, or is `INIT` or `RESET` and takes `STREAM` to `IDLE`. -/
theorem exec_of_isOpen {i : Instr} {s t : State} (h : exec i s = .next t) (ho : s.stream.isOpen) :
    t.inStreamByTheRule ∨ (WritesSchedule i ∧ t.stream = .idle) := by
  have hs := exec_stream h
  have hkept (he : t.stream = s.stream) : t.inStreamByTheRule ∨ (WritesSchedule i ∧ t.stream = .idle) :=
    .inl (.inl (he ▸ ho))
  cases i with
  | nop l k | ecbEnc l k | ecbDec l k | encBlock l k | decBlock l k => exact hkept hs
  | init l k =>
    rw [SpecTable.streamAfter] at hs
    split at hs
    · exact hkept hs
    · exact .inr ⟨⟨l, k, .inl rfl⟩, hs⟩
  | reset l k => exact .inr ⟨⟨l, k, .inr rfl⟩, hs⟩
  | encStart l k =>
    rw [SpecTable.streamAfter] at hs
    split at hs
    · exact .inl (.inl (.inl hs))
    · exact hkept hs
  | encFinal l k =>
    rw [SpecTable.streamAfter] at hs
    split at hs
    · exact .inl (.inr (.inl ⟨hs, ‹_›⟩))
    · exact hkept hs
  | decStart l k =>
    rw [SpecTable.streamAfter] at hs
    split at hs
    · exact .inl (.inl (.inr hs))
    · split at hs
      · exact .inl (.inr (.inr ⟨hs, .inl ‹_›⟩))
      · exact hkept hs
  | decFinal l k =>
    rw [SpecTable.streamAfter] at hs
    split at hs
    · exact .inl (.inr (.inl ⟨hs, ‹_›⟩))
    · split at hs
      · exact .inl (.inr (.inr ⟨hs, ‹_›⟩))
      · exact hkept hs

theorem Made.replaces_of_hardwareReset {m : Made} (h : m.access = .hardwareReset) : m.replaces = true := by
  unfold Made.replaces
  rw [h]

theorem Made.replaces_of_writesSchedule {m : Made} {i : Instr} (h : issued m.access = some i) (hi : WritesSchedule i) :
    m.replaces = true := by
  obtain ⟨w, ha, -⟩ := issued_eq_some h
  unfold Made.replaces
  rw [h, ha]
  obtain ⟨l, k, rfl | rfl⟩ := hi <;> rfl

/-- Whatever is done while a stream is open leaves it as R303 says, or replaces it. -/
theorem Made.happened.of_isOpen {m : Made} (hm : m.happened) (ho : m.before.stream.isOpen) :
    m.after.inStreamByTheRule ∨ (m.replaces = true ∧ m.after.stream = .idle) := by
  obtain ⟨i, hi⟩ | ⟨ha, hs⟩ | hs := hm.stream
  · exact (exec_of_isOpen (hm.exec hi) ho).imp_right fun ⟨hw, hs⟩ => ⟨Made.replaces_of_writesSchedule hi hw, hs⟩
  · exact .inr ⟨Made.replaces_of_hardwareReset ha, hs⟩
  · exact .inl (.inl (hs ▸ ho))

/-! ### How a stream ends (R303) -/

/-- What the last access of a stream is, for each way the stream stands after it. -/
def Made.ends (m : Made) : StreamEnd → Prop
  | .normally => m.after.stream = .done ∧ m.after.err = .none
  | .failed code => FatalCode code ∧ m.after.stream = .failed ∧ m.after.err = code
  | .replaced => m.replaces = true
  | .notEnded => m.after.stream.isOpen

/-- A stream left by the rule stands as `STREAM` and `ERR` say. -/
theorem Made.ends_standing {m : Made} (h : m.after.inStreamByTheRule) : m.ends (standing m.after) := by
  obtain hrun | hdone | ⟨hfailed, hcode⟩ := h
  · have hopen : standing m.after = .notEnded := by
      unfold standing
      obtain hs | hs := hrun <;> rw [hs]
    rw [hopen]
    exact hrun
  · rw [standing_eq_normally.mpr hdone]
    exact hdone
  · rw [standing_eq_failed.mpr ⟨hfailed, rfl⟩]
    exact ⟨hcode, hfailed, rfl⟩

/-- A stream still open after an access that replaces it is replaced; any other stands as `STREAM` and `ERR` say. -/
theorem Made.closing_eq (m : Made) : m.closing =
    if standing m.after = .notEnded ∧ m.replaces = true then .replaced else standing m.after := by
  unfold Made.closing
  split
  · rename_i hs
    simp [hs]
  · rename_i hs
    rw [if_neg fun h => hs h.1]

/-- An access that replaces the open stream leaves it ended. -/
theorem Made.closing_ne_notEnded {m : Made} (hr : m.replaces = true) : m.closing ≠ .notEnded := by
  rw [Made.closing_eq]
  split
  · nofun
  · rename_i hn
    exact fun hs => hn ⟨hs, hr⟩

/-- An access made while a stream is open ends it by the rule, or leaves it open. -/
theorem Made.happened.ends_closing {m : Made} (hm : m.happened) (ho : m.before.stream.isOpen) : m.ends m.closing := by
  rw [Made.closing_eq]
  split
  · rename_i h
    exact h.2
  · rename_i hn
    obtain hrule | ⟨hr, hidle⟩ := hm.of_isOpen ho
    · exact Made.ends_standing hrule
    · exact absurd ⟨by unfold standing; rw [hidle], hr⟩ hn

/-! ### The streams of a run (R303) -/

/-- A stream begins with its `START`, and its last access leaves it as it stands. -/
structure StreamRun.ByTheRule (r : StreamRun) : Prop where
  begins : ∃ m, r.made.head? = some m ∧ m.opens = some r.kind
  ends : ∃ m, r.made.getLast? = some m ∧ m.ends r.ending

theorem StreamRun.byTheRule_start {m : Made} {k : StreamKind} (hm : m.happened) (ho : m.opens = some k) :
    (StreamRun.start k m).ByTheRule where
  begins := ⟨m, rfl, ho⟩
  ends := ⟨m, rfl, Made.ends_standing (hm.inStream_of_opens ho)⟩

theorem StreamRun.extend_ended {r : StreamRun} (hr : r.ending ≠ .notEnded) (m : Made) : r.extend m = r := if_neg hr

theorem StreamRun.extend_open {r : StreamRun} (hr : r.ending = .notEnded) (m : Made) : r.extend m = { r with
    made := r.made ++ [m], output := r.output ++ (if m.opens.isSome then [] else m.output), ending := m.closing } :=
  if_pos hr

theorem StreamRun.ByTheRule.extend {r : StreamRun} (h : r.ByTheRule) {m : Made} (hm : m.happened)
    (hs : r.ending = .notEnded → m.before.stream.isOpen) : (r.extend m).ByTheRule := by
  by_cases hr : r.ending = .notEnded
  · obtain ⟨x, hx, ho⟩ := h.begins
    rw [StreamRun.extend_open hr]
    exact ⟨⟨x, by simp [hx], ho⟩, m, by simp, hm.ends_closing (hs hr)⟩
  · rwa [StreamRun.extend_ended hr]

theorem StreamRun.extend_replaced (r : StreamRun) {m : Made} (hm : m.replaces = true) :
    (r.extend m).ending ≠ .notEnded := by
  by_cases hr : r.ending = .notEnded
  · rw [StreamRun.extend_open hr]
    exact Made.closing_ne_notEnded hm
  · rwa [StreamRun.extend_ended hr]

/-- An open stream is open in the state after its last access. -/
theorem StreamRun.ByTheRule.last_isOpen {r : StreamRun} (h : r.ByTheRule) (he : r.ending = .notEnded) :
    ∃ m, r.made.getLast? = some m ∧ m.after.stream.isOpen := by
  obtain ⟨m, hlast, hends⟩ := h.ends
  exact ⟨m, hlast, by rwa [he] at hends⟩

theorem StreamRun.isOpen_of_extend {r : StreamRun} {m : Made} (hm : m.happened)
    (hs : r.ending = .notEnded → m.before.stream.isOpen) (he : (r.extend m).ending = .notEnded) :
    m.after.stream.isOpen := by
  by_cases hr : r.ending = .notEnded
  · have hends := hm.ends_closing (hs hr)
    have hclosing : m.closing = .notEnded := by rwa [StreamRun.extend_open hr] at he
    rwa [hclosing] at hends
  · rw [StreamRun.extend_ended hr] at he
    exact absurd he hr

/-- The streams so far, the latest first, are by the rule when `STREAM` is `st`: only the latest may be open, and then
`STREAM` says so. -/
structure StreamsByTheRule (rs : List StreamRun) (st : StreamState) : Prop where
  each : ∀ r ∈ rs, r.ByTheRule
  ended : ∀ r ∈ rs.tail, r.ending ≠ .notEnded
  latest : ∀ r, rs.head? = some r → r.ending = .notEnded → st.isOpen

theorem StreamsByTheRule.nil (st : StreamState) : StreamsByTheRule [] st := ⟨nofun, nofun, nofun⟩

section

variable {rs : List StreamRun}

/-- An access that replaces the latest stream leaves none open. -/
theorem StreamsByTheRule.extend_replaced {st : StreamState} (h : StreamsByTheRule rs st) {m : Made}
    (hm : m.replaces = true) : ∀ r ∈ rs.modifyHead (·.extend m), r.ending ≠ .notEnded := by
  cases rs with
  | nil => nofun
  | cons r rs => exact List.forall_mem_cons.mpr ⟨r.extend_replaced hm, h.ended⟩

/-- Only the latest stream can be open. -/
theorem StreamsByTheRule.head?_of_notEnded {st : StreamState} (h : StreamsByTheRule rs st) {r : StreamRun} (hr : r ∈ rs)
    (he : r.ending = .notEnded) : rs.head? = some r := by
  cases rs with
  | nil => cases hr
  | cons x rs =>
    obtain rfl | hr := List.mem_cons.mp hr
    · rfl
    · exact absurd he (h.ended r hr)

variable {m : Made} (h : StreamsByTheRule rs m.before.stream) (hm : m.happened)
include h hm

/-- One more access to the latest stream keeps the streams by the rule. -/
theorem StreamsByTheRule.extend : StreamsByTheRule (rs.modifyHead (·.extend m)) m.after.stream := by
  cases rs with
  | nil => exact .nil _
  | cons r rs =>
    have hr : r.ending = .notEnded → m.before.stream.isOpen := h.latest r rfl
    have hext : (r.extend m).ByTheRule := (h.each r (.head rs)).extend hm hr
    refine ⟨List.forall_mem_cons.mpr ⟨hext, fun x hx => h.each x (.tail r hx)⟩, h.ended, ?_⟩
    rintro _ ⟨⟩
    exact StreamRun.isOpen_of_extend hm hr

/-- One more access, which may begin a stream, keeps the streams by the rule. -/
theorem StreamsByTheRule.follow : StreamsByTheRule (followStreams rs m) m.after.stream := by
  have hext := h.extend hm
  unfold followStreams
  cases ho : m.opens with
  | none => exact hext
  | some k =>
    have hstart := StreamRun.byTheRule_start hm ho
    refine ⟨List.forall_mem_cons.mpr ⟨hstart, hext.each⟩, h.extend_replaced (Made.replaces_of_opens ho), ?_⟩
    rintro _ ⟨⟩ hopen
    obtain ⟨_, ⟨⟩, hlast⟩ := hstart.last_isOpen hopen
    exact hlast

end

/-- A run keeps the streams so far by the rule. -/
theorem StreamsByTheRule.session {as : List Access} {s u : State} {ms : List Made} {rs : List StreamRun}
    (h : StreamsByTheRule rs s.stream) (hs : session as s = some (u, ms)) :
    StreamsByTheRule (ms.foldl followStreams rs) u.stream := by
  induction as generalizing s ms rs with
  | nil =>
    cases hs
    exact h
  | cons a as ih =>
    obtain ⟨t, ms, ha, ht, rfl⟩ := session_cons_some hs
    have hm : Made.happened ⟨{ s with pending := [] }, a, { t with pending := [] }⟩ := (access_pending ha []).2
    rw [List.foldl_cons]
    exact ih (s := t) (StreamsByTheRule.follow h hm) ht

/-- Settles O57: by induction on the run, its streams are by the rule in the state at its end. -/
theorem streamsEndByTheRule : Obligations.StreamsEndByTheRule := by
  intro as s u ms hs r hr
  have h : StreamsByTheRule (ms.foldl followStreams []) u.stream := (StreamsByTheRule.nil s.stream).session hs
  have hr := List.mem_reverse.mp hr
  obtain ⟨hbegins, m, hlast, hends⟩ := h.each r hr
  refine ⟨hbegins, fun he => ⟨m, hlast, ?_⟩, fun code he => ?_, fun he => ⟨m, hlast, ?_⟩, fun he => ?_⟩
  · rwa [he] at hends
  · rw [he] at hends
    obtain ⟨hcode, hstate⟩ := hends
    exact ⟨hcode, m, hlast, hstate⟩
  · rwa [he] at hends
  · have hhead := h.head?_of_notEnded hr he
    exact ⟨List.getLast?_reverse.trans hhead, h.latest r hhead he⟩

end Sys2Proof.Machine
end
